-- ==== Sys2Proof/Word.lean ====
section
/-! DEFINITION. The word types of the CHIP-8 core. Every value is an unsigned bit vector of the width the spec gives it (R11,
R20, R23, R26); a register index, a key number and a sprite height are bounded numbers, not bit patterns (R16, R33, R91). -/

namespace Sys2Proof

/-- An 8-bit value: a general register, a timer, a memory byte, an immediate `kk` (R20, R28, R34, R91). -/
abbrev Byte := BitVec 8

/-- A 16-bit value: `pc`, `I`, a stack entry, an instruction word (R23, R26, R30, R90). -/
abbrev Word := BitVec 16

/-- The 12-bit address field `nnn` of an instruction (R91). -/
abbrev Addr := BitVec 12

/-- The index of one of the 16 general registers V0 to VF (R20). -/
abbrev RegIx := Fin 16

/-- The number of one of the 16 keys (R33). -/
abbrev KeyIx := Fin 16

/-- The 4-bit count `n` of `Dxyn`, 0 to 15 (R91, R93). -/
abbrev Height := Fin 16

/-- VF, general register 15, which doubles as the flag output (R21). -/
def VF : RegIx := 15

/-- The high byte of a word (bits 15 to 8). -/
def hiByte (w : Word) : Byte := w.extractLsb' 8 8

/-- The low byte of a word (bits 7 to 0). -/
def loByte (w : Word) : Byte := w.extractLsb' 0 8

end Sys2Proof
end

