-- ==== Sys2Proof/Config.lean ====
section
/-! DEFINITION. What an implementation fixes (R9, R10) and the model's free values. The six quirk flags are OPEN in the spec
(R10, decision D2), so the configuration a core is constructed with is a constant without a body; the random source of `Cxkk`
is a free value under no law (R175), so it is one too. -/

namespace Sys2Proof

/-- What happens to the pixels of a sprite that run past the right or the bottom edge (R215). -/
inductive EdgePolicy where
  | wrap
  | clip
  deriving DecidableEq, Repr, Inhabited

/-- The quirk configuration `Q`, six fields fixed at construction and never changed afterwards (R10, R37). -/
structure Quirks where
  /-- `8xy1`, `8xy2`, `8xy3` clear VF (R167). -/
  vfResetOnLogicOps : Bool
  /-- `8xy6`, `8xyE` shift Vy instead of Vx (R173). -/
  shiftUsesVy : Bool
  /-- `Bnnn` adds Vx, x the high nibble of nnn, instead of V0 (R148). -/
  jumpOffsetUsesVx : Bool
  /-- `Dxyn` wraps or clips pixels at the display edges (R215). -/
  spriteEdge : EdgePolicy
  /-- `Fx55`, `Fx65` add x + 1 to I afterwards (R198). -/
  indexIncrementOnDumpLoad : Bool
  /-- `Fx1E` writes VF (R193). -/
  indexOverflowSetsVf : Bool
  deriving DecidableEq, Repr, Inhabited

namespace Config

/-- `MEM_SIZE`: bytes of memory, addresses 0x000 to 0xFFF (R9, R34). -/
def memSize : Nat := 0x1000

/-- `ROM_BASE`: load address of the ROM and reset value of `pc` (R9). -/
def romBase : Nat := 0x200

/-- `FONT_BASE`: address of the font table (R9). -/
def fontBase : Nat := 0x000

/-- `STACK_DEPTH`: the largest number of stack entries (R9, R30, decision D3). -/
def stackDepth : Nat := 16

/-- `FONT`: the 16 glyphs of 5 bytes, one per hexadecimal digit, top row first (R35, R36, decision D22). -/
def font : List Byte :=
  [0xF0, 0x90, 0x90, 0x90, 0xF0] ++ [0x20, 0x60, 0x20, 0x20, 0x70] ++
  [0xF0, 0x10, 0xF0, 0x80, 0xF0] ++ [0xF0, 0x10, 0xF0, 0x10, 0xF0] ++
  [0x90, 0x90, 0xF0, 0x10, 0x10] ++ [0xF0, 0x80, 0xF0, 0x10, 0xF0] ++
  [0xF0, 0x80, 0xF0, 0x90, 0xF0] ++ [0xF0, 0x10, 0x20, 0x40, 0x40] ++
  [0xF0, 0x90, 0xF0, 0x90, 0xF0] ++ [0xF0, 0x90, 0xF0, 0x10, 0xF0] ++
  [0xF0, 0x90, 0xF0, 0x90, 0x90] ++ [0xE0, 0x90, 0xE0, 0x90, 0xE0] ++
  [0xF0, 0x80, 0x80, 0x80, 0xF0] ++ [0xE0, 0x90, 0x90, 0x90, 0xE0] ++
  [0xF0, 0x80, 0xF0, 0x80, 0xF0] ++ [0xF0, 0x80, 0xF0, 0x80, 0x80]

/-- The quirk configuration the core of `State.reset` is constructed with: OPEN, no value is assumed (R10, decision D2; log
entry 1). -/
opaque quirks : Quirks

/-- The byte of the k-th draw of `random_byte()`: a free value, no law holds of it (R175, decision D23; log entry 2). -/
opaque randomByte : Nat → Byte

end Config

end Sys2Proof
end

