-- ==== Sys2Proof/Syntax.lean ====
section
/-! DEFINITION. The 34 instructions of the opcode map (R100), one constructor per row of spec/opcode_table.json, in the order
of that table. The constructors carry the names of the conventional mnemonics (R106); the operand fields are those of the
row's format (R92) and have exactly the widths of R91, so a field outside its range cannot be written down. -/

namespace Sys2Proof

/-- One instruction with its operands. -/
inductive Instr where
  /-- `00E0` clear display (R211). -/
  | cls
  /-- `00EE` return (R141). -/
  | ret
  /-- `1nnn` jump (R142). -/
  | jpAddr (nnn : Addr)
  /-- `2nnn` call (R143). -/
  | callAddr (nnn : Addr)
  /-- `3xkk` skip if Vx == kk (R144). -/
  | seVxByte (x : RegIx) (kk : Byte)
  /-- `4xkk` skip if Vx != kk (R145). -/
  | sneVxByte (x : RegIx) (kk : Byte)
  /-- `5xy0` skip if Vx == Vy (R146). -/
  | seVxVy (x y : RegIx)
  /-- `6xkk` Vx = kk (R161). -/
  | ldVxByte (x : RegIx) (kk : Byte)
  /-- `7xkk` Vx += kk (R162). -/
  | addVxByte (x : RegIx) (kk : Byte)
  /-- `8xy0` Vx = Vy (R163). -/
  | ldVxVy (x y : RegIx)
  /-- `8xy1` Vx |= Vy (R164). -/
  | orVxVy (x y : RegIx)
  /-- `8xy2` Vx &= Vy (R165). -/
  | andVxVy (x y : RegIx)
  /-- `8xy3` Vx ^= Vy (R166). -/
  | xorVxVy (x y : RegIx)
  /-- `8xy4` Vx += Vy, VF = carry (R168). -/
  | addVxVy (x y : RegIx)
  /-- `8xy5` Vx -= Vy, VF = NOT borrow (R169). -/
  | subVxVy (x y : RegIx)
  /-- `8xy6` shift right, VF = bit out (R170). -/
  | shrVxVy (x y : RegIx)
  /-- `8xy7` Vx = Vy - Vx, VF = NOT borrow (R171). -/
  | subnVxVy (x y : RegIx)
  /-- `8xyE` shift left, VF = bit out (R172). -/
  | shlVxVy (x y : RegIx)
  /-- `9xy0` skip if Vx != Vy (R147). -/
  | sneVxVy (x y : RegIx)
  /-- `Annn` I = nnn (R191). -/
  | ldIAddr (nnn : Addr)
  /-- `Bnnn` jump to nnn + V0, or nnn + Vx (R148). -/
  | jpV0Addr (nnn : Addr)
  /-- `Cxkk` Vx = random byte & kk (R174). -/
  | rndVxByte (x : RegIx) (kk : Byte)
  /-- `Dxyn` draw a sprite of n rows (R212). -/
  | drwVxVyN (x y : RegIx) (n : Height)
  /-- `Ex9E` skip if key Vx is pressed (R230). -/
  | skpVx (x : RegIx)
  /-- `ExA1` skip if key Vx is not pressed (R231). -/
  | sknpVx (x : RegIx)
  /-- `Fx07` Vx = DT (R233). -/
  | ldVxDT (x : RegIx)
  /-- `Fx0A` wait for a key (R234). -/
  | ldVxK (x : RegIx)
  /-- `Fx15` DT = Vx (R235). -/
  | ldDTVx (x : RegIx)
  /-- `Fx18` ST = Vx (R236). -/
  | ldSTVx (x : RegIx)
  /-- `Fx1E` I += Vx (R192). -/
  | addIVx (x : RegIx)
  /-- `Fx29` I = font address of digit Vx (R194). -/
  | ldFVx (x : RegIx)
  /-- `Fx33` BCD of Vx at I (R195). -/
  | ldBVx (x : RegIx)
  /-- `Fx55` store V0..Vx at I (R196). -/
  | ldMemVx (x : RegIx)
  /-- `Fx65` load V0..Vx from I (R197). -/
  | ldVxMem (x : RegIx)
  deriving DecidableEq, Repr

end Sys2Proof
end

