-- ==== Sys2Proof/WellFormed.lean ====
section
/-! DEFINITION. The checks on what enters the machine from outside. Instruction FIELDS need no check: their types have exactly
the widths of R91 (Syntax.lean), so every term of `Instr` is a legal instruction. What can be ill-formed is an instruction
WORD (R102: a word that matches no row of the opcode map) and a ROM image (R282: one that does not fit). The opcode map
stands here as the table of R100, mask and match per row, and is NOT what the decoder of Decode.lean is written from: that
one follows the groups of R94 to R99. That the two agree is a claim. -/

namespace Sys2Proof

/-- One row of the opcode map: a word `op` is the instruction when `op & mask == value` (R100; `value` is the column the spec
heads `match`). -/
structure Row where
  mnemonic : String
  mask : Word
  value : Word
  deriving DecidableEq, Repr

/-- `op & mask == match` (R100). -/
def Row.hits (r : Row) (op : Word) : Bool := op &&& r.mask == r.value

/-- Rows 1 to 9 and 19 to 22 of R100 that have no sub-operation, or a whole fixed word (formats `F_none`, `F_addr`, `F_xkk`),
with `Dxyn` (`F_xyn`). -/
def rowsWithoutSubOp : List Row :=
  [⟨"CLS", 0xFFFF, 0x00E0⟩, ⟨"RET", 0xFFFF, 0x00EE⟩, ⟨"JP_addr", 0xF000, 0x1000⟩, ⟨"CALL_addr", 0xF000, 0x2000⟩,
   ⟨"SE_Vx__byte", 0xF000, 0x3000⟩, ⟨"SNE_Vx__byte", 0xF000, 0x4000⟩, ⟨"LD_Vx__byte", 0xF000, 0x6000⟩,
   ⟨"ADD_Vx__byte", 0xF000, 0x7000⟩, ⟨"LD_I__addr", 0xF000, 0xA000⟩, ⟨"JP_V0__addr", 0xF000, 0xB000⟩,
   ⟨"RND_Vx__byte", 0xF000, 0xC000⟩, ⟨"DRW_Vx__Vy__nibble", 0xF000, 0xD000⟩]

/-- The rows of format `F_xy` (R100, rows 7 and 10 to 19). -/
def rowsXY : List Row :=
  [⟨"SE_Vx__Vy", 0xF00F, 0x5000⟩, ⟨"LD_Vx__Vy", 0xF00F, 0x8000⟩, ⟨"OR_Vx__Vy", 0xF00F, 0x8001⟩,
   ⟨"AND_Vx__Vy", 0xF00F, 0x8002⟩, ⟨"XOR_Vx__Vy", 0xF00F, 0x8003⟩, ⟨"ADD_Vx__Vy", 0xF00F, 0x8004⟩,
   ⟨"SUB_Vx__Vy", 0xF00F, 0x8005⟩, ⟨"SHR_Vx____Vy", 0xF00F, 0x8006⟩, ⟨"SUBN_Vx__Vy", 0xF00F, 0x8007⟩,
   ⟨"SHL_Vx____Vy", 0xF00F, 0x800E⟩, ⟨"SNE_Vx__Vy", 0xF00F, 0x9000⟩]

/-- The rows of format `F_x` (R100, rows 24 to 34). -/
def rowsX : List Row :=
  [⟨"SKP_Vx", 0xF0FF, 0xE09E⟩, ⟨"SKNP_Vx", 0xF0FF, 0xE0A1⟩, ⟨"LD_Vx__DT", 0xF0FF, 0xF007⟩, ⟨"LD_Vx__K", 0xF0FF, 0xF00A⟩,
   ⟨"LD_DT__Vx", 0xF0FF, 0xF015⟩, ⟨"LD_ST__Vx", 0xF0FF, 0xF018⟩, ⟨"ADD_I__Vx", 0xF0FF, 0xF01E⟩,
   ⟨"LD_F__Vx", 0xF0FF, 0xF029⟩, ⟨"LD_B__Vx", 0xF0FF, 0xF033⟩, ⟨"LD__I___Vx", 0xF0FF, 0xF055⟩,
   ⟨"LD_Vx___I", 0xF0FF, 0xF065⟩]

/-- The complete opcode map, 34 rows (R100). -/
def opcodeTable : List Row := rowsWithoutSubOp ++ rowsXY ++ rowsX

/-- The word is one of the 34 instructions (R102, R103). -/
def isInstructionWord (op : Word) : Bool := opcodeTable.any (·.hits op)

/-- The mnemonic of an instruction's row, as spec/opcode_table.json spells it. -/
def Instr.mnemonic : Instr → String
  | .cls => "CLS"
  | .ret => "RET"
  | .jpAddr _ => "JP_addr"
  | .callAddr _ => "CALL_addr"
  | .seVxByte _ _ => "SE_Vx__byte"
  | .sneVxByte _ _ => "SNE_Vx__byte"
  | .seVxVy _ _ => "SE_Vx__Vy"
  | .ldVxByte _ _ => "LD_Vx__byte"
  | .addVxByte _ _ => "ADD_Vx__byte"
  | .ldVxVy _ _ => "LD_Vx__Vy"
  | .orVxVy _ _ => "OR_Vx__Vy"
  | .andVxVy _ _ => "AND_Vx__Vy"
  | .xorVxVy _ _ => "XOR_Vx__Vy"
  | .addVxVy _ _ => "ADD_Vx__Vy"
  | .subVxVy _ _ => "SUB_Vx__Vy"
  | .shrVxVy _ _ => "SHR_Vx____Vy"
  | .subnVxVy _ _ => "SUBN_Vx__Vy"
  | .shlVxVy _ _ => "SHL_Vx____Vy"
  | .sneVxVy _ _ => "SNE_Vx__Vy"
  | .ldIAddr _ => "LD_I__addr"
  | .jpV0Addr _ => "JP_V0__addr"
  | .rndVxByte _ _ => "RND_Vx__byte"
  | .drwVxVyN _ _ _ => "DRW_Vx__Vy__nibble"
  | .skpVx _ => "SKP_Vx"
  | .sknpVx _ => "SKNP_Vx"
  | .ldVxDT _ => "LD_Vx__DT"
  | .ldVxK _ => "LD_Vx__K"
  | .ldDTVx _ => "LD_DT__Vx"
  | .ldSTVx _ => "LD_ST__Vx"
  | .addIVx _ => "ADD_I__Vx"
  | .ldFVx _ => "LD_F__Vx"
  | .ldBVx _ => "LD_B__Vx"
  | .ldMemVx _ => "LD__I___Vx"
  | .ldVxMem _ => "LD_Vx___I"

/-- A ROM image fits when `0x200 + len(rom) <= 0x1000` (R281, R282). -/
def romFits (rom : List Byte) : Bool := Config.romBase + rom.length ≤ Config.memSize

end Sys2Proof
end

