-- ==== Sys2Proof/Decode.lean ====
section
/-! DEFINITION. The decoder, total on any bytes and rejecting by name (R90 to R103, R132, R135), and the encoder written from
the formats of R92. The decoder selects on the operation nibble and then, within groups 0, 5, 8, 9, E and F, on the low bits
(R94 to R99); it reads nothing but the word, and no quirk changes its result (R105, R132). -/

namespace Sys2Proof

/-- The field `op[hi:lo]`, read as an unsigned number (R11). -/
def bits (op : Word) (hi lo : Nat) : Nat := op.toNat / 2 ^ lo % 2 ^ (hi + 1 - lo)

/-- The operation nibble `op[15:12]` (R91). -/
def opNibble (op : Word) : Nat := bits op 15 12

/-- `nnn = op[11:0]` (R91). -/
def fieldNnn (op : Word) : Addr := BitVec.ofNat 12 (bits op 11 0)

/-- `x = op[11:8]` (R91). -/
def fieldX (op : Word) : RegIx := Fin.ofNat 16 (bits op 11 8)

/-- `y = op[7:4]` (R91). -/
def fieldY (op : Word) : RegIx := Fin.ofNat 16 (bits op 7 4)

/-- `kk = op[7:0]` (R91). -/
def fieldKk (op : Word) : Byte := BitVec.ofNat 8 (bits op 7 0)

/-- `n = op[3:0]` (R91). -/
def fieldN (op : Word) : Height := Fin.ofNat 16 (bits op 3 0)

/-- Group 0: the two whole words 0x00E0 and 0x00EE (R95). -/
def decodeGroup0 (op : Word) : Option Instr :=
  match op.toNat with
  | 0x00E0 => some .cls
  | 0x00EE => some .ret
  | _ => none

/-- Group 8 selects on `op[3:0]` (R97). -/
def decodeGroup8 (op : Word) : Option Instr :=
  match bits op 3 0 with
  | 0x0 => some (.ldVxVy (fieldX op) (fieldY op))
  | 0x1 => some (.orVxVy (fieldX op) (fieldY op))
  | 0x2 => some (.andVxVy (fieldX op) (fieldY op))
  | 0x3 => some (.xorVxVy (fieldX op) (fieldY op))
  | 0x4 => some (.addVxVy (fieldX op) (fieldY op))
  | 0x5 => some (.subVxVy (fieldX op) (fieldY op))
  | 0x6 => some (.shrVxVy (fieldX op) (fieldY op))
  | 0x7 => some (.subnVxVy (fieldX op) (fieldY op))
  | 0xE => some (.shlVxVy (fieldX op) (fieldY op))
  | _ => none

/-- Group E selects on `op[7:0]` (R98). -/
def decodeGroupE (op : Word) : Option Instr :=
  match bits op 7 0 with
  | 0x9E => some (.skpVx (fieldX op))
  | 0xA1 => some (.sknpVx (fieldX op))
  | _ => none

/-- Group F selects on `op[7:0]` (R99). -/
def decodeGroupF (op : Word) : Option Instr :=
  match bits op 7 0 with
  | 0x07 => some (.ldVxDT (fieldX op))
  | 0x0A => some (.ldVxK (fieldX op))
  | 0x15 => some (.ldDTVx (fieldX op))
  | 0x18 => some (.ldSTVx (fieldX op))
  | 0x1E => some (.addIVx (fieldX op))
  | 0x29 => some (.ldFVx (fieldX op))
  | 0x33 => some (.ldBVx (fieldX op))
  | 0x55 => some (.ldMemVx (fieldX op))
  | 0x65 => some (.ldVxMem (fieldX op))
  | _ => none

/-- The instruction a word stands for, if it stands for one (R94, R132); groups 5 and 9 require `op[3:0] = 0` (R96). -/
def decodeWord (op : Word) : Option Instr :=
  match opNibble op with
  | 0x0 => decodeGroup0 op
  | 0x1 => some (.jpAddr (fieldNnn op))
  | 0x2 => some (.callAddr (fieldNnn op))
  | 0x3 => some (.seVxByte (fieldX op) (fieldKk op))
  | 0x4 => some (.sneVxByte (fieldX op) (fieldKk op))
  | 0x5 => if bits op 3 0 = 0 then some (.seVxVy (fieldX op) (fieldY op)) else none
  | 0x6 => some (.ldVxByte (fieldX op) (fieldKk op))
  | 0x7 => some (.addVxByte (fieldX op) (fieldKk op))
  | 0x8 => decodeGroup8 op
  | 0x9 => if bits op 3 0 = 0 then some (.sneVxVy (fieldX op) (fieldY op)) else none
  | 0xA => some (.ldIAddr (fieldNnn op))
  | 0xB => some (.jpV0Addr (fieldNnn op))
  | 0xC => some (.rndVxByte (fieldX op) (fieldKk op))
  | 0xD => some (.drwVxVyN (fieldX op) (fieldY op) (fieldN op))
  | 0xE => decodeGroupE op
  | 0xF => decodeGroupF op
  | _ => none

/-- Why bytes decode to no instruction. -/
inductive Reject where
  /-- Fewer than the two bytes of an instruction word. -/
  | truncated
  /-- The word matches no row of the opcode map (R102). -/
  | unknownInstruction (op : Word)
  deriving DecidableEq, Repr

/-- The word of two bytes: the byte at the lower address holds bits 15 to 8 (R64). -/
def wordOfBytes (hi lo : Byte) : Word := hi ++ lo

/-- Decode the first instruction of a byte stream and give the bytes after it: every instruction is two bytes (R90). -/
def decode : List Byte → Except Reject (Instr × List Byte)
  | hi :: lo :: rest =>
    match decodeWord (wordOfBytes hi lo) with
    | some i => .ok (i, rest)
    | none => .error (.unknownInstruction (wordOfBytes hi lo))
  | _ => .error .truncated

/-! ## The encoder -/

/-- Format `F_addr`: operation nibble and `nnn` (R92). -/
def formAddr (op : Nat) (nnn : Addr) : Word := BitVec.ofNat 16 (op * 0x1000 + nnn.toNat)

/-- Format `F_xkk`: operation nibble, `x` and `kk` (R92). -/
def formXkk (op : Nat) (x : RegIx) (kk : Byte) : Word := BitVec.ofNat 16 (op * 0x1000 + x.val * 0x100 + kk.toNat)

/-- Formats `F_xy` and `F_xyn`: operation nibble, `x`, `y` and the last nibble (R92). -/
def formXyn (op : Nat) (x y : RegIx) (last : Nat) : Word :=
  BitVec.ofNat 16 (op * 0x1000 + x.val * 0x100 + y.val * 0x10 + last)

/-- Format `F_x`: operation nibble, `x` and the low byte of the sub-operation (R92). -/
def formX (op : Nat) (x : RegIx) (low : Nat) : Word := BitVec.ofNat 16 (op * 0x1000 + x.val * 0x100 + low)

/-- The word of an instruction (R92, R100). -/
def encode : Instr → Word
  | .cls => 0x00E0
  | .ret => 0x00EE
  | .jpAddr nnn => formAddr 0x1 nnn
  | .callAddr nnn => formAddr 0x2 nnn
  | .seVxByte x kk => formXkk 0x3 x kk
  | .sneVxByte x kk => formXkk 0x4 x kk
  | .seVxVy x y => formXyn 0x5 x y 0x0
  | .ldVxByte x kk => formXkk 0x6 x kk
  | .addVxByte x kk => formXkk 0x7 x kk
  | .ldVxVy x y => formXyn 0x8 x y 0x0
  | .orVxVy x y => formXyn 0x8 x y 0x1
  | .andVxVy x y => formXyn 0x8 x y 0x2
  | .xorVxVy x y => formXyn 0x8 x y 0x3
  | .addVxVy x y => formXyn 0x8 x y 0x4
  | .subVxVy x y => formXyn 0x8 x y 0x5
  | .shrVxVy x y => formXyn 0x8 x y 0x6
  | .subnVxVy x y => formXyn 0x8 x y 0x7
  | .shlVxVy x y => formXyn 0x8 x y 0xE
  | .sneVxVy x y => formXyn 0x9 x y 0x0
  | .ldIAddr nnn => formAddr 0xA nnn
  | .jpV0Addr nnn => formAddr 0xB nnn
  | .rndVxByte x kk => formXkk 0xC x kk
  | .drwVxVyN x y n => formXyn 0xD x y n.val
  | .skpVx x => formX 0xE x 0x9E
  | .sknpVx x => formX 0xE x 0xA1
  | .ldVxDT x => formX 0xF x 0x07
  | .ldVxK x => formX 0xF x 0x0A
  | .ldDTVx x => formX 0xF x 0x15
  | .ldSTVx x => formX 0xF x 0x18
  | .addIVx x => formX 0xF x 0x1E
  | .ldFVx x => formX 0xF x 0x29
  | .ldBVx x => formX 0xF x 0x33
  | .ldMemVx x => formX 0xF x 0x55
  | .ldVxMem x => formX 0xF x 0x65

/-- The two bytes of an instruction in memory order, high byte first (R64, R90). -/
def encodeBytes (i : Instr) : List Byte := [hiByte (encode i), loByte (encode i)]

/-! ## The host's numbering of an instruction's bits -/

/-- The word of an opcode-table row: `nbits` bits given by `w`, bit 0 the least significant bit of the word, the bits above
`nbits` zero. -/
def tableWord (nbits w : Nat) : Word := BitVec.ofNat 16 (w % 2 ^ nbits)

/-- The bytes of such a word as memory holds them. -/
def tableBytes (nbits w : Nat) : List Byte := [hiByte (tableWord nbits w), loByte (tableWord nbits w)]

/-- The instruction the decoder reads from a table word. -/
def decodeTableWord (nbits w : Nat) : Option Instr :=
  match decode (tableBytes nbits w) with
  | .ok (i, _) => some i
  | .error _ => none

end Sys2Proof
end

