-- ==== Sys2Proof/Machine/State.lean ====
section
/-! DEFINITION. The state of the core, as plain data (R47), what a step can answer, and the state after reset. -/

namespace Sys2Proof.Machine

/-- The five halt reasons, the core's only exceptions (R250). A halt is not a `Fault` of this model: the spec describes its
entry (R253), so the machine goes to a next state whose run state is `halted`. -/
inductive HaltReason where
  | unknownInstruction
  | memoryOutOfBounds
  | stackOverflow
  | stackUnderflow
  | romTooLarge
  deriving DecidableEq, Repr

/-- The run state `Run` (R40). -/
inductive RunState where
  | running
  /-- Waiting for a press edge; `t` is the register the key number will be written to (R41). -/
  | waitingForKey (t : RegIx)
  | halted (r : HaltReason)
  deriving DecidableEq, Repr

/-- The display: 32 rows of 64 one-bit pixels, row-major (R32). -/
abbrev Display := Vector (Vector Bool 64) 32

/-- Memory: the bytes that differ from what an unlisted address reads as, as (address, byte) pairs in rising address order
(the canonical form is `Memory.wf`, in Machine/Ops.lean). -/
abbrev Memory := List Host.Cell

/-- The complete state of the core: the tuple of R47 and nothing more. The random byte of `Cxkk` is an input of a step
(`stepWithDraw`), not state. -/
structure CoreState where
  /-- The 16 general registers V0 to VF (R20). -/
  V : Vector Byte 16
  /-- The index register (R26). -/
  I : Word
  /-- The program counter (R23). -/
  pc : Word
  /-- The delay timer (R28). -/
  DT : Byte
  /-- The sound timer (R29). -/
  ST : Byte
  /-- The call stack, its top at the end (R12, R30). -/
  stack : List Word
  /-- The framebuffer (R32). -/
  disp : Display
  /-- The keypad latch: true is pressed (R33). -/
  key : Vector Bool 16
  /-- Memory (R34). -/
  mem : Memory
  /-- The run state (R40). -/
  run : RunState
  /-- The quirk configuration, fixed at construction (R37). -/
  quirks : Quirks
  deriving DecidableEq, Repr

/-- What the step of the host's interface acts on: the core, and a place in the environment's stream of random bytes. That step
takes no input, so the byte a draw receives is looked up in the stream (log entry 2). -/
structure State extends CoreState where
  /-- How many bytes `random_byte()` has given: the MODEL's own field, no state of the core (R42, R47, R175; log entry 2). -/
  draws : Nat
  deriving DecidableEq, Repr

/-- The faults of a step: NONE. Every failure of this core is a halt, whose entry the spec describes (R14, R253), so it is a
next state; no behaviour is left undefined (R103, R210). The type is empty, so no step can answer a fault. -/
inductive Fault where
  deriving DecidableEq, Repr

/-- The refusals of a step. -/
inductive Refusal where
  /-- Raised by an arm of `exec` whose instruction has no meaning yet; safe (nothing is claimed of such a step). No arm of
  this model raises it: all 34 instructions have their meaning. -/
  | notModelled (mnemonic : String)
  deriving DecidableEq, Repr

/-- The state `new(Q)` constructs: the quirk configuration `Q`, the font in memory, everything else zero, empty, clear or
released (R45, R46, R121; decisions D4, D5). Memory lists nothing, because an unlisted address reads as its content here. -/
def State.new (q : Quirks) : State where
  V := Vector.replicate 16 0
  I := 0
  pc := BitVec.ofNat 16 Config.romBase
  DT := 0
  ST := 0
  stack := []
  disp := Vector.replicate 32 (Vector.replicate 64 false)
  key := Vector.replicate 16 false
  mem := []
  run := .running
  quirks := q
  draws := 0

/-- The machine right after reset: a newly constructed core, whose quirk configuration is open (R46; log entry 1). It equals
the state after `load` of the empty ROM. -/
def State.reset : State := State.new Config.quirks

end Sys2Proof.Machine
end

