-- ==== Sys2Proof/Machine/Ops.lean ====
section
/-! DEFINITION. The named operations over memory, registers, stack and display that every meaning is written in; the halt, the
core's one exception (R14, R253), and the way out of it (R254, R281); and the fetch (R130, R131). -/

namespace Sys2Proof.Machine

/-! ## Memory (20_memory.md) -/

/-- What an address reads as after a reset that loads nothing: the font table at `FONT_BASE`, zero elsewhere (R45, R46, R70). -/
def Memory.background (a : Nat) : Byte :=
  if Config.fontBase ≤ a then Config.font.getD (a - Config.fontBase) 0 else 0

/-- The listed byte at an address. -/
def Memory.lookup : Memory → Nat → Option Byte
  | [], _ => none
  | (b, v) :: m, a => if a = b then some v else Memory.lookup m a

/-- The byte at an address. -/
def Memory.read (m : Memory) (a : Nat) : Byte := (m.lookup a).getD (Memory.background a)

/-- The list with the entry `(a, v)` in front, or without it where an unlisted `a` reads as `v` anyway. -/
def Memory.consCell (a : Nat) (v : Byte) (m : Memory) : Memory :=
  if v = Memory.background a then m else (a, v) :: m

/-- Write one byte, keeping the canonical form. -/
def Memory.write : Memory → Nat → Byte → Memory
  | [], a, v => Memory.consCell a v []
  | (b, w) :: m, a, v =>
    if a < b then Memory.consCell a v ((b, w) :: m)
    else if a = b then Memory.consCell a v m
    else (b, w) :: Memory.write m a v

/-- Write the bytes of a list at rising addresses from `a`, in order. -/
def Memory.writeList : Memory → Nat → List Byte → Memory
  | m, _, [] => m
  | m, a, v :: vs => Memory.writeList (m.write a v) (a + 1) vs

/-- The bytes at `a, a + 1, …`, `count` of them. -/
def Memory.readList (m : Memory) (a : Nat) : Nat → List Byte
  | 0 => []
  | count + 1 => m.read a :: Memory.readList m (a + 1) count

/-- The canonical form: addresses strictly rise, each is an address of the 4096-byte memory (R34, R60), and no entry equals what
the unlisted address reads as. -/
abbrev Memory.wf (m : Memory) : Prop :=
  m.Pairwise (fun c d => c.1 < d.1) ∧ ∀ c ∈ m, c.1 < Config.memSize ∧ c.2 ≠ Memory.background c.1

/-- `MemRead(addr, 1)` (R13, R61): the full address is compared with 0x1000 and never wrapped (R63). -/
def memRead (m : Memory) (addr : Nat) : Except HaltReason Byte :=
  if addr < Config.memSize then .ok (m.read addr) else .error .memoryOutOfBounds

/-- `MemWrite(addr, 1, v)` (R13, R62). -/
def memWrite (m : Memory) (addr : Nat) (v : Byte) : Except HaltReason Memory :=
  if addr < Config.memSize then .ok (m.write addr v) else .error .memoryOutOfBounds

/-- `CheckRange(base, count)` (R199). -/
def checkRange (base count : Nat) : Except HaltReason Unit :=
  if 0 < count ∧ Config.memSize ≤ base + count - 1 then .error .memoryOutOfBounds else .ok ()

/-- `MemRead` at `addr, addr + 1, …`, `count` times. -/
def memReads (m : Memory) (addr : Nat) : Nat → Except HaltReason (List Byte)
  | 0 => .ok []
  | count + 1 => do
    let b ← memRead m addr
    let bs ← memReads m (addr + 1) count
    .ok (b :: bs)

/-- `MemWrite` of the bytes of a list at `addr, addr + 1, …`, in order. -/
def memWrites (m : Memory) (addr : Nat) : List Byte → Except HaltReason Memory
  | [] => .ok m
  | v :: vs => do
    let m' ← memWrite m addr v
    memWrites m' (addr + 1) vs

/-! ## Registers and the other fields of the state (R12) -/

namespace State

/-- Read `V[x]`. -/
def reg (s : State) (x : RegIx) : Byte := s.V[x]

/-- `V[x] <- v`; no register is hard-wired (R20). -/
def setReg (s : State) (x : RegIx) (v : Byte) : State := { s with V := s.V.set x v }

/-- The whole register file. -/
def setRegs (s : State) (V : Vector Byte 16) : State := { s with V := V }

/-- `I <- v`. -/
def setI (s : State) (v : Word) : State := { s with I := v }

/-- `pc <- target`. -/
def setPc (s : State) (target : Word) : State := { s with pc := target }

/-- `DT <- v`. -/
def setDT (s : State) (v : Byte) : State := { s with DT := v }

/-- `ST <- v`. -/
def setST (s : State) (v : Byte) : State := { s with ST := v }

/-- The whole call stack. -/
def setStack (s : State) (stack : List Word) : State := { s with stack := stack }

/-- The whole display. -/
def setDisp (s : State) (d : Display) : State := { s with disp := d }

/-- `Key[k] <- p`. -/
def setKeyState (s : State) (k : KeyIx) (p : Bool) : State := { s with key := s.key.set k p }

/-- The whole memory. -/
def setMem (s : State) (m : Memory) : State := { s with mem := m }

/-- `Run <- r`. -/
def setRun (s : State) (r : RunState) : State := { s with run := r }

/-- One more random byte has been drawn (log entry 2). -/
def drawn (s : State) : State := { s with draws := s.draws + 1 }

/-- `Key[k]`: the level of a key (R33). -/
def keyPressed (s : State) (k : KeyIx) : Bool := s.key[k]

/-- Read one byte of memory. -/
def byteAt (s : State) (a : Nat) : Byte := s.mem.read a

/-- `next = a + 2`, where `a`, the address of the instruction that executes, is in `pc` (R23, R133). -/
def nextPc (s : State) : Word := s.pc + 2

/-- `pc <- next`, the default advance (R133). -/
def advance (s : State) : State := s.setPc s.nextPc

/-- The end of a skip: `pc <- a + 4` when it is taken, whatever the next word is, and `pc <- next` when it is not (R149). -/
def skipIf (s : State) (taken : Bool) : State := s.setPc (if taken then s.pc + 4 else s.nextPc)

end State

/-- Load the bytes of a list into `V[k], V[k + 1], …`. -/
def fillRegs : Vector Byte 16 → Nat → List Byte → Vector Byte 16
  | V, _, [] => V
  | V, k, b :: bs => fillRegs (V.setIfInBounds k b) (k + 1) bs

/-- `V[0], …, V[x]`, in order. -/
def State.regsUpTo (s : State) (x : RegIx) : List Byte := s.V.toList.take (x.val + 1)

/-! ## Display (R210) -/

/-- `Disp[x][y]`: column x, row y (R32). -/
def pixelOf (d : Display) (x : Fin 64) (y : Fin 32) : Bool := d[y][x]

/-- XOR one pixel with 1 ("Drawing always XORs; never simple overwrite", R32). -/
def flipPixel (d : Display) (x : Fin 64) (y : Fin 32) : Display := d.set y (d[y].set x (!d[y][x]))

/-- All pixels 0. -/
def clearDisplay : Display := Vector.replicate 32 (Vector.replicate 64 false)

/-! ## Halt: the core's one exception, and the way out of it -/

/-- Halt entry (R14, R253): only `Run <- Halted(reason)` is written. Nothing is saved, no mode changes and control goes nowhere:
there is no vector and no handler. `s` is the state the command began with, so every change it made so far is discarded. -/
def State.halt (s : State) (r : HaltReason) : State := s.setRun (.halted r)

/-- The end of an instruction that can raise a halt (R134): all its writes take effect together, or none does. -/
def State.commit (s : State) (result : Except HaltReason State) : Host.Outcome State Fault Refusal :=
  match result with
  | .ok t => .next t
  | .error r => .next (s.halt r)

/-- The end of an instruction that cannot halt. -/
def State.done (t : State) : Host.Outcome State Fault Refusal := .next t

/-- Halt exit (R254): there is no return instruction; only `load` leaves `Halted`, by resetting the core. This is the state
`load(rom)` leaves when the ROM fits (R281): the state of a new core with the ROM written at 0x200. The quirk configuration
is kept (R37), and so is the model's count of random draws (log entry 2). -/
def State.installRom (s : State) (rom : List Byte) : State :=
  { State.new s.quirks with mem := Memory.writeList [] Config.romBase rom, draws := s.draws }

/-! ## Fetch (40_cycle.md) -/

/-- The addresses an instruction may be fetched from: even, within [0x200, 0xFFE] (R24). -/
def legalPc (a : Word) : Bool := a.toNat % 2 == 0 && decide (Config.romBase ≤ a.toNat) && decide (a.toNat ≤ 0xFFE)

/-- `check_pc(a)` (R131). -/
def checkPc (a : Word) : Except HaltReason Unit := if legalPc a then .ok () else .error .memoryOutOfBounds

/-- `fetch(a)`: two bytes, big-endian (R64, R130). -/
def fetch (m : Memory) (a : Nat) : Except HaltReason Word := do
  let hi ← memRead m a
  let lo ← memRead m (a + 1)
  .ok (wordOfBytes hi lo)

/-- The instruction word at `pc`: the byte at the lower address holds bits 15 to 8 (R64, R130). -/
def State.wordAtPc (s : State) : Word := wordOfBytes (s.byteAt s.pc.toNat) (s.byteAt (s.pc.toNat + 1))

/-- `decode(op)`, raising `UnknownInstruction` (R135). -/
def decodeOrHalt (op : Word) : Except HaltReason Instr :=
  match decodeWord op with
  | some i => .ok i
  | none => .error .unknownInstruction

/-- The front of a step in `Running`: check, fetch, decode, in that order (R129, R255). -/
def State.fetchInstr (s : State) : Except HaltReason Instr := do
  checkPc s.pc
  let op ← fetch s.mem s.pc.toNat
  decodeOrHalt op

/-- Place bytes where the next step fetches its instruction: at `pc`, which is left as it is where it may be fetched from and
is the reset entry point otherwise, in a core that is running (log entry 3). -/
def State.placeAtFetch (s : State) (bs : List Byte) : State :=
  let a := if legalPc s.pc then s.pc else BitVec.ofNat 16 Config.romBase
  ((s.setPc a).setMem (s.mem.writeList a.toNat bs)).setRun .running

end Sys2Proof.Machine
end

