-- ==== Sys2Proof/Machine/Cycle.lean ====
section
/-! DEFINITION. What a step does in each run state (R129, R136, R137), for a given execution of instructions: `exec` makes it the
step of the host's interface, and `execWithDraw` the core's step with the random byte as an input. -/

namespace Sys2Proof.Machine

/-- A step in `Running`: fetch and decode, then execute; a halt raised on the way changes only `Run`, and `pc` keeps the
address the step began at (R129, R134). -/
def stepRunning (execute : Instr → State → Host.Outcome State Fault Refusal) (s : State) :
    Host.Outcome State Fault Refusal :=
  match s.fetchInstr with
  | .ok i => execute i s
  | .error r => .next (s.halt r)

/-- A step in `WaitingForKey` does nothing (R136). -/
def stepWaiting (s : State) : Host.Outcome State Fault Refusal := .next s

/-- A step in `Halted` changes no state (R137); that it returns `Fail` is in Machine/Commands.lean. -/
def stepHalted (s : State) : Host.Outcome State Fault Refusal := .next s

/-- A step selects on the run state (R129). -/
def stepSelect (execute : Instr → State → Host.Outcome State Fault Refusal) (s : State) :
    Host.Outcome State Fault Refusal :=
  match s.run with
  | .running => stepRunning execute s
  | .waitingForKey _ => stepWaiting s
  | .halted _ => stepHalted s

end Sys2Proof.Machine
end

