-- ==== Sys2Proof/Machine/Operands.lean ====
section
/-! DEFINITION. The operand forms: what an instruction reads from a register besides the plain `V[x]`, `V[y]`, `kk`, `n`. Every
operand is read from the state the instruction began in (R12, R176). -/

namespace Sys2Proof.Machine

/-- An address field written to `pc` or `I`: `zext_16(nnn)` (R93). -/
def addrWord (nnn : Addr) : Word := nnn.zeroExtend 16

/-- The shift source of `8xy6` and `8xyE`: `V[y]` with the quirk, `V[x]` without (R173). -/
def shiftSource (s : State) (x y : RegIx) : Byte := if s.quirks.shiftUsesVy then s.reg y else s.reg x

/-- `nnn[11:8]`, the register `Bnnn` names under its quirk (R93, R148). -/
def addrReg (nnn : Addr) : RegIx := Fin.ofNat 16 (nnn.toNat / 0x100)

/-- The offset of `Bnnn`: `V[nnn[11:8]]` with the quirk, `V[0]` without (R148). -/
def jumpOffset (s : State) (nnn : Addr) : Byte :=
  if s.quirks.jumpOffsetUsesVx then s.reg (addrReg nnn) else s.reg 0

/-- The low nibble of a register value, `V[x] & 0x0F`. -/
def lowNibble (v : Byte) : Fin 16 := Fin.ofNat 16 (v &&& 0x0F).toNat

/-- The key number of `Ex9E` and `ExA1` (R232, decision D20). -/
def keyNumber (s : State) (x : RegIx) : KeyIx := lowNibble (s.reg x)

/-- The address of the font glyph of the digit in `V[x]` (R194, decision D21). -/
def glyphAddress (s : State) (x : RegIx) : Word := BitVec.ofNat 16 (Config.fontBase + 5 * (lowNibble (s.reg x)).val)

/-- `I + V[x]` as a full sum (R192). -/
def indexSum (s : State) (x : RegIx) : Nat := s.I.toNat + (s.reg x).toNat

/-- The address an access through `I` starts at: the only addressing mode is `I` plus a constant offset (R190). -/
def indexBase (s : State) : Nat := s.I.toNat

/-- The start column of a sprite, `V[x] mod 64` (R213). -/
def startColumn (s : State) (x : RegIx) : Nat := (s.reg x).toNat % 64

/-- The start row of a sprite, `V[y] mod 32` (R213). -/
def startRow (s : State) (y : RegIx) : Nat := (s.reg y).toNat % 32

/-- The three decimal digits of a byte: hundreds, tens, ones (R195). -/
def bcdDigits (v : Byte) : List Byte :=
  [BitVec.ofNat 8 (v.toNat / 100), BitVec.ofNat 8 (v.toNat / 10 % 10), BitVec.ofNat 8 (v.toNat % 10)]

end Sys2Proof.Machine
end

