-- ==== Sys2Proof/Machine/Flags.lean ====
section
/-! DEFINITION. The flag computations. VF is the only flag register (R21); where an instruction writes both `V[x]` and VF, the
result is written first and the flag second (R176, decision D11). -/

namespace Sys2Proof.Machine

/-- A flag as VF holds it: 1 or 0. -/
def flagByte (b : Bool) : Byte := if b then 1 else 0

/-- Carry of `a + b` (R160, R168). -/
def carry (a b : Byte) : Bool := a.toNat + b.toNat > 255

/-- NOT borrow of `a - b`: a borrow happens exactly when `a < b` (R160, R169, R171). -/
def notBorrow (a b : Byte) : Bool := a.toNat ≥ b.toNat

/-- The bit a right shift shifts out, `s & 1` (R170). -/
def bitOutRight (v : Byte) : Byte := v &&& 1

/-- The bit a left shift shifts out, `s >> 7` (R172). -/
def bitOutLeft (v : Byte) : Byte := v >>> 7

/-- `I + V[x]` left the address space (R193). -/
def indexOverflow (sum : Nat) : Bool := sum > 0xFFF

/-- `V[x] <- result`, then `V[0xF] <- flag` (R176). -/
def State.setResultFlag (s : State) (x : RegIx) (result flag : Byte) : State := (s.setReg x result).setReg VF flag

/-- The end of a logic operation: `V[x] <- result`, then VF cleared under `vf_reset_on_logic_ops` (R167). -/
def State.setLogicResult (s : State) (x : RegIx) (result : Byte) : State :=
  if s.quirks.vfResetOnLogicOps then s.setResultFlag x result 0 else s.setReg x result

/-- `Fx1E` writes VF under `index_overflow_sets_vf` (R193). -/
def State.setIndexFlag (s : State) (sum : Nat) : State :=
  if s.quirks.indexOverflowSetsVf then s.setReg VF (flagByte (indexOverflow sum)) else s

end Sys2Proof.Machine
end

