-- ==== Sys2Proof/Machine/Alu.lean ====
section
/-! DEFINITION. Register and arithmetic instructions (42_alu.md): 6xkk, 7xkk, 8xy0 to 8xy7, 8xyE, Cxkk. None of them halts (R160). -/

namespace Sys2Proof.Machine

/-- `6xkk` (R161). -/
def execLdVxByte (x : RegIx) (kk : Byte) (s : State) : Host.Outcome State Fault Refusal :=
  (s.setReg x kk).advance.done

/-- `7xkk`: no carry is recorded (R162). -/
def execAddVxByte (x : RegIx) (kk : Byte) (s : State) : Host.Outcome State Fault Refusal :=
  (s.setReg x (s.reg x + kk)).advance.done

/-- `8xy0`: `vf_reset_on_logic_ops` does not apply (R163, decision D12). -/
def execLdVxVy (x y : RegIx) (s : State) : Host.Outcome State Fault Refusal :=
  (s.setReg x (s.reg y)).advance.done

/-- `8xy1` (R164). -/
def execOrVxVy (x y : RegIx) (s : State) : Host.Outcome State Fault Refusal :=
  (s.setLogicResult x (s.reg x ||| s.reg y)).advance.done

/-- `8xy2` (R165). -/
def execAndVxVy (x y : RegIx) (s : State) : Host.Outcome State Fault Refusal :=
  (s.setLogicResult x (s.reg x &&& s.reg y)).advance.done

/-- `8xy3` (R166). -/
def execXorVxVy (x y : RegIx) (s : State) : Host.Outcome State Fault Refusal :=
  (s.setLogicResult x (s.reg x ^^^ s.reg y)).advance.done

/-- `8xy4` (R168). -/
def execAddVxVy (x y : RegIx) (s : State) : Host.Outcome State Fault Refusal :=
  (s.setResultFlag x (s.reg x + s.reg y) (flagByte (carry (s.reg x) (s.reg y)))).advance.done

/-- `8xy5` (R169). -/
def execSubVxVy (x y : RegIx) (s : State) : Host.Outcome State Fault Refusal :=
  (s.setResultFlag x (s.reg x - s.reg y) (flagByte (notBorrow (s.reg x) (s.reg y)))).advance.done

/-- `8xy6` (R170). -/
def execShrVxVy (x y : RegIx) (s : State) : Host.Outcome State Fault Refusal :=
  (s.setResultFlag x (shiftSource s x y >>> 1) (bitOutRight (shiftSource s x y))).advance.done

/-- `8xy7` (R171). -/
def execSubnVxVy (x y : RegIx) (s : State) : Host.Outcome State Fault Refusal :=
  (s.setResultFlag x (s.reg y - s.reg x) (flagByte (notBorrow (s.reg y) (s.reg x)))).advance.done

/-- `8xyE` (R172). -/
def execShlVxVy (x y : RegIx) (s : State) : Host.Outcome State Fault Refusal :=
  (s.setResultFlag x (shiftSource s x y <<< 1) (bitOutLeft (shiftSource s x y))).advance.done

/-- `Cxkk` with the drawn byte as an input (R174, R175); the model counts the draw. -/
def rndWithDraw (draw : Byte) (x : RegIx) (kk : Byte) (s : State) : State := (s.setReg x (draw &&& kk)).drawn.advance

/-- `Cxkk`: the byte is the next draw, a free value (R174, R175, decision D23; log entry 2). -/
def execRndVxByte (x : RegIx) (kk : Byte) (s : State) : Host.Outcome State Fault Refusal :=
  (rndWithDraw (Config.randomByte s.draws) x kk s).done

end Sys2Proof.Machine
end

