-- ==== Sys2Proof/Machine/Control.lean ====
section
/-! DEFINITION. Control transfer (41_control_flow.md): 00EE, 1nnn, 2nnn, 3xkk, 4xkk, 5xy0, 9xy0, Bnnn. No instruction checks its
target: the next step's fetch does (R140). -/

namespace Sys2Proof.Machine

/-- `00EE`: pop the most recently pushed entry into `pc` (R141). -/
def execRet (s : State) : Host.Outcome State Fault Refusal :=
  s.commit (match s.stack.getLast? with
    | none => .error .stackUnderflow
    | some top => .ok ((s.setStack s.stack.dropLast).setPc top))

/-- `1nnn` (R142). -/
def execJpAddr (nnn : Addr) (s : State) : Host.Outcome State Fault Refusal :=
  (s.setPc (addrWord nnn)).done

/-- `2nnn`: push `next`, the address after the call (R143, conflict C6). -/
def execCallAddr (nnn : Addr) (s : State) : Host.Outcome State Fault Refusal :=
  s.commit (if Config.stackDepth ≤ s.stack.length then .error .stackOverflow
    else .ok ((s.setStack (s.stack ++ [s.nextPc])).setPc (addrWord nnn)))

/-- `3xkk` (R144). -/
def execSeVxByte (x : RegIx) (kk : Byte) (s : State) : Host.Outcome State Fault Refusal :=
  (s.skipIf (s.reg x == kk)).done

/-- `4xkk` (R145). -/
def execSneVxByte (x : RegIx) (kk : Byte) (s : State) : Host.Outcome State Fault Refusal :=
  (s.skipIf (s.reg x != kk)).done

/-- `5xy0` (R146). -/
def execSeVxVy (x y : RegIx) (s : State) : Host.Outcome State Fault Refusal :=
  (s.skipIf (s.reg x == s.reg y)).done

/-- `9xy0` (R147). -/
def execSneVxVy (x y : RegIx) (s : State) : Host.Outcome State Fault Refusal :=
  (s.skipIf (s.reg x != s.reg y)).done

/-- `Bnnn`: a 16-bit sum that is not reduced to 12 bits (R148, decision D16). -/
def execJpV0Addr (nnn : Addr) (s : State) : Host.Outcome State Fault Refusal :=
  (s.setPc (addrWord nnn + (jumpOffset s nnn).zeroExtend 16)).done

end Sys2Proof.Machine
end

