-- ==== Sys2Proof/Machine/DisplayUnit.lean ====
section
/-! DEFINITION. The display unit and its instructions (44_display.md): 00E0, Dxyn. -/

namespace Sys2Proof.Machine

/-- Where a pixel of a sprite lands: reduced to the grid under `Wrap`, and nowhere past an edge under `Clip` (R215). -/
def placePixel (edge : EdgePolicy) (px py : Nat) : Option (Fin 64 × Fin 32) :=
  match edge with
  | .wrap => some (Fin.ofNat 64 px, Fin.ofNat 32 py)
  | .clip => if px ≤ 63 ∧ py ≤ 31 then some (Fin.ofNat 64 px, Fin.ofNat 32 py) else none

/-- The pixels that byte `row`, drawn with its leftmost pixel at (x0, py), draws: bit 7 is the leftmost (R218). -/
def rowCells (edge : EdgePolicy) (x0 py : Nat) (row : Byte) : List (Fin 64 × Fin 32) :=
  (List.range 8).filterMap (fun c => if row.getLsbD (7 - c) then placePixel edge (x0 + c) py else none)

/-- The pixels a sprite draws, row after row and from left to right (R212). -/
def spriteCells (edge : EdgePolicy) (x0 : Nat) : Nat → List Byte → List (Fin 64 × Fin 32)
  | _, [] => []
  | py, row :: rows => rowCells edge x0 py row ++ spriteCells edge x0 (py + 1) rows

/-- Draw one pixel: XOR it with 1, and note a collision if it was set (R212, R214). -/
def drawPixel (acc : Display × Bool) (c : Fin 64 × Fin 32) : Display × Bool :=
  (flipPixel acc.1 c.1 c.2, acc.2 || pixelOf acc.1 c.1 c.2)

/-- `draw(x, y, sprite_bytes)`: the display afterwards and whether any collision occurred (R210). -/
def drawSprite (edge : EdgePolicy) (x0 y0 : Nat) (rows : List Byte) (d : Display) : Display × Bool :=
  (spriteCells edge x0 y0 rows).foldl drawPixel (d, false)

/-- `00E0` (R211). -/
def execCls (s : State) : Host.Outcome State Fault Refusal :=
  (s.setDisp clearDisplay).advance.done

/-- The state after a sprite of the given rows has been drawn at `(V[x], V[y])`: VF is the collision flag (R212). -/
def State.afterDraw (s : State) (x y : RegIx) (rows : List Byte) : State :=
  let r := drawSprite s.quirks.spriteEdge (startColumn s x) (startRow s y) rows s.disp
  ((s.setDisp r.1).setReg VF (flagByte r.2)).advance

/-- `Dxyn`: all n bytes are checked and read before any pixel changes (R212, R217); n = 0 reads nothing (R216). -/
def execDrwVxVyN (x y : RegIx) (n : Height) (s : State) : Host.Outcome State Fault Refusal :=
  s.commit do
    checkRange (indexBase s) n.val
    let rows ← memReads s.mem (indexBase s) n.val
    .ok (s.afterDraw x y rows)

end Sys2Proof.Machine
end

