-- ==== Sys2Proof/Machine/IndexMemory.lean ====
section
/-! DEFINITION. Index register and memory instructions (43_index_memory.md): Annn, Fx1E, Fx29, Fx33, Fx55, Fx65. Every address
an instruction will access is checked before any access (R68, R199). -/

namespace Sys2Proof.Machine

/-- `I <- I + x + 1` under `index_increment_on_register_dump_load`, a 16-bit sum that does not wrap at 0x1000 (R198, decision D15). -/
def State.postIncrement (s : State) (x : RegIx) : State :=
  if s.quirks.indexIncrementOnDumpLoad then s.setI (s.I + BitVec.ofNat 16 (x.val + 1)) else s

/-- `Annn` (R191). -/
def execLdIAddr (nnn : Addr) (s : State) : Host.Outcome State Fault Refusal :=
  (s.setI (addrWord nnn)).advance.done

/-- `Fx1E`: the sum wraps modulo 0x1000 (R192, decision D14). -/
def execAddIVx (x : RegIx) (s : State) : Host.Outcome State Fault Refusal :=
  ((s.setI (BitVec.ofNat 16 (indexSum s x % Config.memSize))).setIndexFlag (indexSum s x)).advance.done

/-- `Fx29` (R194). -/
def execLdFVx (x : RegIx) (s : State) : Host.Outcome State Fault Refusal :=
  (s.setI (glyphAddress s x)).advance.done

/-- `Fx33` (R195). -/
def execLdBVx (x : RegIx) (s : State) : Host.Outcome State Fault Refusal :=
  s.commit do
    checkRange (indexBase s) 3
    let m ← memWrites s.mem (indexBase s) (bcdDigits (s.reg x))
    .ok (s.setMem m).advance

/-- `Fx55` (R196). -/
def execLdMemVx (x : RegIx) (s : State) : Host.Outcome State Fault Refusal :=
  s.commit do
    checkRange (indexBase s) (x.val + 1)
    let m ← memWrites s.mem (indexBase s) (s.regsUpTo x)
    .ok ((s.setMem m).postIncrement x).advance

/-- `Fx65` (R197). -/
def execLdVxMem (x : RegIx) (s : State) : Host.Outcome State Fault Refusal :=
  s.commit do
    checkRange (indexBase s) (x.val + 1)
    let bs ← memReads s.mem (indexBase s) (x.val + 1)
    .ok ((s.setRegs (fillRegs s.V 0 bs)).postIncrement x).advance

end Sys2Proof.Machine
end

