-- ==== Sys2Proof/Machine/KeysTimers.lean ====
section
/-! DEFINITION. Keypad and timer instructions (45_timers_input.md): Ex9E, ExA1, Fx07, Fx0A, Fx15, Fx18. None of them halts. -/

namespace Sys2Proof.Machine

/-- `Ex9E`: tests the level of the key, not an edge (R230). -/
def execSkpVx (x : RegIx) (s : State) : Host.Outcome State Fault Refusal :=
  (s.skipIf (s.keyPressed (keyNumber s x))).done

/-- `ExA1` (R231). -/
def execSknpVx (x : RegIx) (s : State) : Host.Outcome State Fault Refusal :=
  (s.skipIf (!s.keyPressed (keyNumber s x))).done

/-- `Fx07` (R233). -/
def execLdVxDT (x : RegIx) (s : State) : Host.Outcome State Fault Refusal :=
  (s.setReg x s.DT).advance.done

/-- `Fx0A`: enters the wait and advances `pc` as it does so; `V[x]` is written when a press edge ends the wait (R234,
decision D24, conflict C4). -/
def execLdVxK (x : RegIx) (s : State) : Host.Outcome State Fault Refusal :=
  (s.setRun (.waitingForKey x)).advance.done

/-- `Fx15` (R235). -/
def execLdDTVx (x : RegIx) (s : State) : Host.Outcome State Fault Refusal :=
  (s.setDT (s.reg x)).advance.done

/-- `Fx18` (R236). -/
def execLdSTVx (x : RegIx) (s : State) : Host.Outcome State Fault Refusal :=
  (s.setST (s.reg x)).advance.done

end Sys2Proof.Machine
end

