-- ==== Sys2Proof/Machine/Step.lean ====
section
/-! DEFINITION. The step command's effect on the state (R129), and placing one instruction where the next step fetches it. -/

namespace Sys2Proof.Machine

/-- `step()` (R129). -/
def step (s : State) : Host.Outcome State Fault Refusal := stepSelect exec s

/-- The state with one instruction, numbered as spec/opcode_table.json numbers its bits, where the next step fetches it (log
entry 3). -/
def State.withFetchWord (s : State) (nbits w : Nat) : State := s.placeAtFetch (tableBytes nbits w)

end Sys2Proof.Machine
end

