-- ==== Sys2Proof/Machine/Commands.lean ====
section
/-! DEFINITION. The command interface of the core (R120): the host issues one atomic command at a time, in any order (R122). A
command maps the whole state to a new state and a return value (R6, R15). The core never runs by itself (R123), so these are
the only ways its state changes. -/

namespace Sys2Proof.Machine

/-- The numeric code of a halt reason (R250, decision D10). -/
def HaltReason.code : HaltReason → Nat
  | .unknownInstruction => 1
  | .memoryOutOfBounds => 2
  | .stackOverflow => 3
  | .stackUnderflow => 4
  | .romTooLarge => 5

/-! ## The observation surface (R44): reads that change nothing -/

/-- What the host can read. The indices are bounded by type (R219). -/
inductive Query where
  | framebuffer
  | pixel (x : Fin 64) (y : Fin 32)
  | runState
  | soundActive
  | register (x : RegIx)
  | index
  | programCounter
  | delayTimer
  | soundTimer
  | callStack
  | key (k : KeyIx)
  | memory (a : Addr)
  | quirkConfig
  deriving DecidableEq, Repr

/-- A value the host reads. -/
inductive Observation where
  | bit (b : Bool)
  | bitmap (bs : List Bool)
  | byte (b : Byte)
  | word (w : Word)
  | words (ws : List Word)
  | run (r : RunState)
  | quirks (q : Quirks)
  deriving DecidableEq, Repr

/-- `sound_active()`: whether the sound counter is nonzero (R29, R261). -/
def State.soundActive (s : State) : Bool := s.ST != 0

/-- `pixel(x, y)` (R219). -/
def State.pixel (s : State) (x : Fin 64) (y : Fin 32) : Bool := pixelOf s.disp x y

/-- The framebuffer snapshot, row-major: pixel (x, y) is element y * 64 + x (R32). -/
def State.framebuffer (s : State) : List Bool := (s.disp.toList.map Vector.toList).flatten

/-- The value a read returns (R44). -/
def State.observe (s : State) : Query → Observation
  | .framebuffer => .bitmap s.framebuffer
  | .pixel x y => .bit (s.pixel x y)
  | .runState => .run s.run
  | .soundActive => .bit s.soundActive
  | .register x => .byte (s.reg x)
  | .index => .word s.I
  | .programCounter => .word s.pc
  | .delayTimer => .byte s.DT
  | .soundTimer => .byte s.ST
  | .callStack => .words s.stack
  | .key k => .bit (s.keyPressed k)
  | .memory a => .byte (s.byteAt a.toNat)
  | .quirkConfig => .quirks s.quirks

/-! ## The commands' effects -/

/-- What a command returns (R15). -/
inductive Return where
  | ok
  | value (o : Observation)
  | fail (r : HaltReason)
  deriving DecidableEq, Repr

/-- What a step returns, told from the run state it leaves: `Fail(r)` exactly when that is `Halted(r)`, whether the step raised
the halt (R14) or found it (R137), and `Ok` otherwise (R129, R136). -/
def State.stepReturn (t : State) : Return :=
  match t.run with
  | .halted r => .fail r
  | _ => .ok

/-- `load(rom)`: the reset (R280, R281), in every run state (R283); a ROM that does not fit halts the core and changes nothing
else (R282, decision D6). -/
def load (rom : List Byte) (s : State) : State × Return :=
  if romFits rom then (s.installRom rom, .ok) else (s.halt .romTooLarge, .fail .romTooLarge)

/-- One timer after a tick: one less if it is nonzero (R28, R259). -/
def tickTimer (t : Byte) : Byte := if t = 0 then 0 else t - 1

/-- `tick_timers()`: both timers, in every run state (R259, R260). -/
def tickTimers (s : State) : State := (s.setDT (tickTimer s.DT)).setST (tickTimer s.ST)

/-- A press edge on key k: a press while the key is recorded as not pressed (R43, R262). -/
def pressEdge (s : State) (k : KeyIx) (p : Bool) : Bool := p && !s.keyPressed k

/-- The byte a key number is written to a register as (R263). -/
def keyByte (k : KeyIx) : Byte := BitVec.ofNat 8 k.val

/-- The wake-up: a press edge on any key while the core waits writes the key's number to the target register and ends the
wait; `pc` does not change (R262, R263). -/
def State.wake (s : State) (k : KeyIx) : State :=
  match s.run with
  | .waitingForKey t => (s.setReg t (keyByte k)).setRun .running
  | _ => s

/-- `set_key(k, p)` (R262). -/
def setKey (k : KeyIx) (p : Bool) (s : State) : State :=
  if pressEdge s k p then (s.setKeyState k p).wake k else s.setKeyState k p

/-- `run_cycles(N)`: up to N steps, stopping after the first that fails (R124). -/
def runCycles : Nat → State → Host.Outcome (State × Return) Fault Refusal
  | 0, s => .next (s, .ok)
  | n + 1, s =>
    match step s with
    | .next t =>
      match t.stepReturn with
      | .fail r => .next (t, .fail r)
      | _ => runCycles n t
    | .fault f => .fault f
    | .refused r => .refused r

/-- `step()` as a command: the state and `Ok` or `Fail(reason)` (R129). -/
def stepCommand (s : State) : Host.Outcome (State × Return) Fault Refusal :=
  match step s with
  | .next t => .next (t, t.stepReturn)
  | .fault f => .fault f
  | .refused r => .refused r

/-- The commands of R120 on an existing core; `new(Q)` is `State.new`. The key number is 4 bits by type (R262). -/
inductive Command where
  | load (rom : List Byte)
  | step
  | runCycles (n : Nat)
  | tickTimers
  | setKey (k : KeyIx) (p : Bool)
  | read (q : Query)
  deriving DecidableEq, Repr

/-- The effect and the return value of one command (R120). -/
def command (c : Command) (s : State) : Host.Outcome (State × Return) Fault Refusal :=
  match c with
  | .load rom => .next (load rom s)
  | .step => stepCommand s
  | .runCycles n => runCycles n s
  | .tickTimers => .next (tickTimers s, .ok)
  | .setKey k p => .next (setKey k p s, .ok)
  | .read q => .next (s, .value (s.observe q))

/-- An execution: any sequence of commands, each on the state the one before it left (R122), with their return values. A
failure ends no sequence: the host decides what to issue next (R254). -/
def commands : List Command → State → Host.Outcome (State × List Return) Fault Refusal
  | [], s => .next (s, [])
  | c :: cs, s =>
    match command c s with
    | .next (t, r) =>
      match commands cs t with
      | .next (u, rs) => .next (u, r :: rs)
      | .fault f => .fault f
      | .refused r => .refused r
    | .fault f => .fault f
    | .refused r => .refused r

end Sys2Proof.Machine
end

