-- ==== Sys2Proof/Machine/CoreStep.lean ====
section
/-! DEFINITION. The core's step as R47 has it: from the core's state alone, with the random byte of `Cxkk` as an input. The step
of the host's interface is this step with the next byte of the environment's stream as its input (log entry 2). -/

namespace Sys2Proof.Machine

/-- A core at a place in the environment's stream of random bytes. -/
def CoreState.withDraws (c : CoreState) (k : Nat) : State := { toCoreState := c, draws := k }

/-- The core of an outcome. -/
def coreOutcome : Host.Outcome State Fault Refusal → Host.Outcome CoreState Fault Refusal
  | .next t => .next t.toCoreState
  | .fault f => .fault f
  | .refused r => .refused r

/-- Execute an instruction with the byte `random_byte()` gives it as an input (R175): `Cxkk` is the one instruction that draws. -/
def execWithDraw (draw : Byte) (i : Instr) (s : State) : Host.Outcome State Fault Refusal :=
  match i with
  | .rndVxByte x kk => (rndWithDraw draw x kk s).done
  | j => exec j s

/-- `step()` on the core's state, with the random byte as an input (R42, R47, R129, R175). -/
def stepWithDraw (draw : Byte) (c : CoreState) : Host.Outcome CoreState Fault Refusal :=
  coreOutcome (stepSelect (execWithDraw draw) (c.withDraws 0))

end Sys2Proof.Machine
end

