-- ==== Sys2Proof/Safety.lean ====
section
/-! DEFINITION. What the claims call a safe state: the invariants the spec states of the core, and whether it has halted. -/

namespace Sys2Proof.Machine

/-- The core has halted; only `load` leaves this state (R40, R254). -/
def State.isHalted (s : State) : Bool :=
  match s.run with
  | .halted _ => true
  | _ => false

/-- An address a call can have pushed: `next` of a legal fetch address, so even and in [0x202, 0x1000] (R141, R143). -/
def returnAddress (a : Word) : Prop := a.toNat % 2 = 0 ∧ 0x202 ≤ a.toNat ∧ a.toNat ≤ 0x1000

/-- The invariant of the core's state. -/
structure Inv (s : State) : Prop where
  /-- Memory keeps its canonical form, within the 4096 addresses (R34). -/
  memory : s.mem.wf
  /-- `I` holds a value in 0x000 .. 0x1000 (R27). -/
  index : s.I.toNat ≤ 0x1000
  /-- The largest `pc` an instruction can produce is 0x10FE (R25). -/
  pc : s.pc.toNat ≤ 0x10FE
  /-- The stack holds at most `STACK_DEPTH` entries (R30). -/
  depth : s.stack.length ≤ Config.stackDepth
  /-- Every stack entry is the address after a call (R141). -/
  entries : ∀ a ∈ s.stack, returnAddress a
  /-- While the core waits for a key, `pc` is the address after the `Fx0A` (R234, R263). -/
  waiting : ∀ t, s.run = .waitingForKey t → returnAddress s.pc

end Sys2Proof.Machine
end

