-- ==== Sys2Proof/Certificates/Slice0/Obligations.lean ====
section
/-! DEFINITION. The statements for the provers. Each is about every state (a core reachable from reset or not) and every operand
value the encoding admits; where a statement would fail only in states no run reaches, its premise is the canonical form of
memory, which `StepKeepsInv` and `CommandKeepsInv` state of every step and every command.

What a statement says an execution leaves unchanged is `OnlyChanges`: every register, timer, stack entry, pixel, key, byte of
memory, the run state, the quirks and the model's count of draws, but for the parts it lists. `pc` is always stated itself.
Where a docstring names a decision D<n> of spec/92_eei_decisions.md or a rule the spec marks as derived, the statement rests on
that choice and has basis 'derived'. -/

namespace Sys2Proof.Claims

open Sys2Proof.Machine

/-- The parts of the state besides `pc` (R47). -/
inductive Part where
  | regs | index | delay | sound | stack | display | keys | memory | run | quirks | draws
  deriving DecidableEq, Repr

/-- A part reads the same before and after; memory byte by byte, the display pixel by pixel. -/
def Part.same (s t : State) : Part → Prop
  | .regs => ∀ k, t.reg k = s.reg k
  | .index => t.I = s.I
  | .delay => t.DT = s.DT
  | .sound => t.ST = s.ST
  | .stack => t.stack = s.stack
  | .display => ∀ x y, t.pixel x y = s.pixel x y
  | .keys => ∀ k, t.keyPressed k = s.keyPressed k
  | .memory => ∀ a, t.byteAt a = s.byteAt a
  | .run => t.run = s.run
  | .quirks => t.quirks = s.quirks
  | .draws => t.draws = s.draws

/-- Every part but those listed is unchanged. -/
def OnlyChanges (parts : List Part) (s t : State) : Prop := ∀ p, p ∉ parts → p.same s t

/-- The addresses no instruction is fetched from (R24, R131). -/
abbrev IllegalPc (a : Word) : Prop := a.toNat % 2 ≠ 0 ∨ a.toNat < 0x200 ∨ 0xFFE < a.toNat

/-- A control transfer does not check its target: the NEXT step does, and halts there (the corner cases of R141, R142, R143; what
else that halt leaves is `IllegalPcHaltsAtFetch`). -/
def TargetCheckedByNextStep (s t : State) : Prop :=
  s.run = .running → IllegalPc t.pc → ∃ u, step t = .next u ∧ u.run = .halted .memoryOutOfBounds

/-- The offset register of `Bnnn` (R148). -/
def OffsetRegister (s : State) (nnn : Addr) (r : RegIx) : Prop :=
  if s.quirks.jumpOffsetUsesVx then r.val = nnn.toNat / 0x100 else r = 0

/-- The source register of a shift (R173). -/
def ShiftRegister (s : State) (x y : RegIx) : RegIx := if s.quirks.shiftUsesVy then y else x

/-- The sprite of `Dxyn` draws the display pixel (u, v): some bit of one of its n rows is 1 and lands there (R212, R213, R215,
R218; decisions D17, D18). -/
def Drawn (s : State) (x y : RegIx) (n : Height) (u : Fin 64) (v : Fin 32) : Prop :=
  ∃ r c, r < n.val ∧ c < 8 ∧ (s.byteAt (indexBase s + r)).getLsbD (7 - c) = true ∧
    match s.quirks.spriteEdge with
    | .wrap => ((s.reg x).toNat % 64 + c) % 64 = u.val ∧ ((s.reg y).toNat % 32 + r) % 32 = v.val
    | .clip => (s.reg x).toNat % 64 + c = u.val ∧ (s.reg y).toNat % 32 + r = v.val

/-- The instructions that write the index register (R26). -/
def writesIndex (q : Quirks) : Instr → Bool
  | .ldIAddr _ | .addIVx _ | .ldFVx _ => true
  | .ldMemVx _ | .ldVxMem _ => q.indexIncrementOnDumpLoad
  | _ => false

/-- The instructions that write the call stack (R30). -/
def writesStack : Instr → Bool
  | .ret | .callAddr _ => true
  | _ => false

/-- The instructions that write the display (R32). -/
def writesDisplay : Instr → Bool
  | .cls | .drwVxVyN _ _ _ => true
  | _ => false

/-- The instructions that write memory (R34, R67). -/
def writesMemory : Instr → Bool
  | .ldBVx _ | .ldMemVx _ => true
  | _ => false

/-- The general registers an instruction writes: its destination, and VF where the instruction writes it as a flag (R20, R21). -/
def writesReg (q : Quirks) (k : RegIx) : Instr → Bool
  | .ldVxByte x _ | .addVxByte x _ | .ldVxVy x _ | .rndVxByte x _ | .ldVxDT x => k == x
  | .orVxVy x _ | .andVxVy x _ | .xorVxVy x _ => k == x || (k == VF && q.vfResetOnLogicOps)
  | .addVxVy x _ | .subVxVy x _ | .shrVxVy x _ | .subnVxVy x _ | .shlVxVy x _ => k == x || k == VF
  | .drwVxVyN _ _ _ => k == VF
  | .addIVx _ => k == VF && q.indexOverflowSetsVf
  | .ldVxMem x => decide (k ≤ x)
  | _ => false

/-- The core's next step executes the `Cxkk` with these operands. -/
def ExecutesRandom (c : CoreState) (x : RegIx) (kk : Byte) : Prop :=
  c.run = .running ∧ ¬ IllegalPc c.pc ∧
    decode [c.mem.read c.pc.toNat, c.mem.read (c.pc.toNat + 1)] = .ok (.rndVxByte x kk, [])

/-- Why a step of a running core halts (R251). -/
inductive StepHaltCause (s : State) : HaltReason → Prop where
  | illegalPc (h : IllegalPc s.pc) : StepHaltCause s .memoryOutOfBounds
  | unknownWord (h : ¬ IllegalPc s.pc) (hw : isInstructionWord s.wordAtPc = false) : StepHaltCause s .unknownInstruction
  | emptyStack (h : ¬ IllegalPc s.pc) (hi : decodeWord s.wordAtPc = some .ret) (hs : s.stack = []) :
      StepHaltCause s .stackUnderflow
  | fullStack (nnn : Addr) (h : ¬ IllegalPc s.pc) (hi : decodeWord s.wordAtPc = some (.callAddr nnn))
      (hs : s.stack.length = 16) : StepHaltCause s .stackOverflow
  | draw (x y : RegIx) (n : Height) (h : ¬ IllegalPc s.pc) (hi : decodeWord s.wordAtPc = some (.drwVxVyN x y n))
      (hn : 0 < n.val) (hr : 0x1000 ≤ s.I.toNat + n.val - 1) : StepHaltCause s .memoryOutOfBounds
  | bcd (x : RegIx) (h : ¬ IllegalPc s.pc) (hi : decodeWord s.wordAtPc = some (.ldBVx x))
      (hr : 0x1000 ≤ s.I.toNat + 2) : StepHaltCause s .memoryOutOfBounds
  | store (x : RegIx) (h : ¬ IllegalPc s.pc) (hi : decodeWord s.wordAtPc = some (.ldMemVx x))
      (hr : 0x1000 ≤ s.I.toNat + x.val) : StepHaltCause s .memoryOutOfBounds
  | load (x : RegIx) (h : ¬ IllegalPc s.pc) (hi : decodeWord s.wordAtPc = some (.ldVxMem x))
      (hr : 0x1000 ≤ s.I.toNat + x.val) : StepHaltCause s .memoryOutOfBounds

end Sys2Proof.Claims

open Sys2Proof Sys2Proof.Machine Sys2Proof.Claims

/-! ## Reset and load -/

/-- The state after reset: `pc`, the run state, the font and zeroed memory as the spec states them (R45, R46); the zeroes of the
registers, timers, stack, display and keys, and the state before the first load, are the spec's own choices (D4, D5), and the
font bytes are D22. The quirks are open, so nothing is said of them. -/
def Obligations.ResetState : Prop :=
  State.reset.pc = 0x200 ∧ State.reset.run = .running ∧ (∀ x, State.reset.reg x = 0) ∧ State.reset.I = 0 ∧
  State.reset.DT = 0 ∧ State.reset.ST = 0 ∧ State.reset.stack = [] ∧ (∀ u v, State.reset.pixel u v = false) ∧
  (∀ k, State.reset.keyPressed k = false) ∧
  (∀ a, a < 80 → some (State.reset.byteAt a) = Config.font[a]?) ∧ (∀ a, 80 ≤ a → State.reset.byteAt a = 0) ∧
  Config.font.length = 80 ∧ load [] State.reset = (State.reset, .ok)

/-- `load` of a ROM that fits, from any run state (R281, D33): every piece of state has the value of R45, the zeroes by D5, and
the quirks are kept. -/
def Obligations.LoadInstallsRom : Prop :=
  ∀ (rom : List Byte) (s : State), 0x200 + rom.length ≤ 0x1000 →
    ∃ t, command (.load rom) s = .next (t, .ok) ∧
      (∀ a, a < 80 → some (t.byteAt a) = Config.font[a]?) ∧
      (∀ a, 80 ≤ a → a < 0x200 → t.byteAt a = 0) ∧
      (∀ a, 0x200 ≤ a → a < 0x200 + rom.length → some (t.byteAt a) = rom[a - 0x200]?) ∧
      (∀ a, 0x200 + rom.length ≤ a → t.byteAt a = 0) ∧
      t.pc = 0x200 ∧ t.run = .running ∧ (∀ x, t.reg x = 0) ∧ t.I = 0 ∧ t.DT = 0 ∧ t.ST = 0 ∧ t.stack = [] ∧
      (∀ u v, t.pixel u v = false) ∧ (∀ k, t.keyPressed k = false) ∧ t.quirks = s.quirks ∧ t.mem.wf

/-- `load` of a ROM that does not fit halts the core and changes nothing else (R282, D6). -/
def Obligations.OversizedLoadHalts : Prop :=
  ∀ (rom : List Byte) (s : State), 0x1000 < 0x200 + rom.length →
    command (.load rom) s = .next ({ s with run := .halted .romTooLarge }, .fail .romTooLarge)

/-! ## The step -/

/-- When the core runs, `pc` may be fetched from and the two bytes at it decode to i, the step is the execution of i, and the
command returns what the state it leaves tells: `Fail` exactly when that is halted (R129, R130, R132). -/
def Obligations.StepRunsDecodedInstruction : Prop :=
  ∀ (s : State) (i : Instr), s.run = .running → ¬ IllegalPc s.pc →
    decode [s.byteAt s.pc.toNat, s.byteAt (s.pc.toNat + 1)] = .ok (i, []) →
    step s = exec i s ∧
      ∀ t, exec i s = .next t → command .step s = .next (t, match t.run with | .halted r => .fail r | _ => .ok)

/-- A step while the core waits does nothing and succeeds (R136); a step of a halted core changes nothing and fails with the
reason again (R137, D7). -/
def Obligations.StepOutsideRunning : Prop :=
  ∀ s : State, (∀ t, s.run = .waitingForKey t → step s = .next s ∧ command .step s = .next (s, .ok)) ∧
    (∀ r, s.run = .halted r → step s = .next s ∧ command .step s = .next (s, .fail r))

/-- A running core whose `pc` is odd, below 0x200 or above 0xFFE halts at the fetch, changing nothing but the run state (R131;
decision D9). -/
def Obligations.IllegalPcHaltsAtFetch : Prop :=
  ∀ s : State, s.run = .running → IllegalPc s.pc →
    command .step s = .next ({ s with run := .halted .memoryOutOfBounds }, .fail .memoryOutOfBounds)

/-- A word that matches no row of the opcode map halts the core, and `pc` keeps its address (R135; that nothing else
changes is decision D8). -/
def Obligations.UnknownWordHalts : Prop :=
  ∀ s : State, s.run = .running → ¬ IllegalPc s.pc →
    isInstructionWord (s.byteAt s.pc.toNat ++ s.byteAt (s.pc.toNat + 1)) = false →
    command .step s = .next ({ s with run := .halted .unknownInstruction }, .fail .unknownInstruction)

/-- The fetch reads the byte at the lower address as bits 15 to 8, and never halts at an address the `pc` check admits (R130). -/
def Obligations.FetchIsBigEndian : Prop :=
  ∀ (m : Memory) (a : Word), ¬ IllegalPc a →
    ∃ op, fetch m a.toNat = .ok op ∧ op.toNat = (m.read a.toNat).toNat * 256 + (m.read (a.toNat + 1)).toNat

/-! ## Decoding -/

/-- The decoder and the opcode map agree: the decoder accepts exactly the words that match a row, a word it accepts matches the
row of its instruction, the map has 34 rows, and no two rows match the same word (R100). -/
def Obligations.OpcodeMapIsDecoded : Prop :=
  (∀ w : Word, (decodeWord w).isSome = isInstructionWord w) ∧
  (∀ (w : Word) (i : Instr), decodeWord w = some i → ∃ r ∈ opcodeTable, r.mnemonic = i.mnemonic ∧ w &&& r.mask = r.value) ∧
  opcodeTable.length = 34 ∧
  opcodeTable.Pairwise (fun r r' => ∀ w : Word, ¬ (w &&& r.mask = r.value ∧ w &&& r'.mask = r'.value))

/-- Decoding what was encoded gives the instruction back, with every operand at every value, and leaves the bytes after it. -/
def Obligations.DecodeOfEncode : Prop :=
  ∀ i : Instr, decodeWord (encode i) = some i ∧
    ∀ rest : List Byte, decode (encodeBytes i ++ rest) = .ok (i, rest)

/-- A word has one meaning: encoding what it decodes to gives the word back, so no bit is don't-care (R101, which the spec marks
as derived). -/
def Obligations.EncodeOfDecode : Prop :=
  ∀ (w : Word) (i : Instr), decodeWord w = some i → encode i = w

/-- A few words written out from the formats of R92: the operation nibble, x, y, n, kk and nnn stand where the table puts them. -/
def Obligations.SampleWordsDecode : Prop :=
  decodeWord 0b0000000011100000 = some .cls ∧
  decodeWord 0b0001001000110100 = some (.jpAddr 0x234) ∧
  decodeWord 0b0011001100000101 = some (.seVxByte 3 0x05) ∧
  decodeWord 0b1000000100100100 = some (.addVxVy 1 2) ∧
  decodeWord 0b1010001100000000 = some (.ldIAddr 0x300) ∧
  decodeWord 0b1101010101100101 = some (.drwVxVyN 5 6 5) ∧
  decodeWord 0b1110000110011110 = some (.skpVx 1) ∧
  decodeWord 0b1111001001100101 = some (.ldVxMem 2) ∧
  decodeWord 0b0101000100100001 = none

/-! ## Control transfer -/

/-- `00EE`: pops the most recently pushed entry into `pc`; on an empty stack it halts and changes nothing else (R141; that a
halt changes nothing else is decision D8). -/
def Obligations.ReturnPopsOrUnderflows : Prop :=
  ∀ s : State, (s.stack = [] → exec .ret s = .next { s with run := .halted .stackUnderflow }) ∧
    ∀ rest top, s.stack = rest ++ [top] →
      ∃ t, exec .ret s = .next t ∧ t.pc = top ∧ t.stack = rest ∧ OnlyChanges [.stack] s t ∧ TargetCheckedByNextStep s t

/-- `2nnn`: pushes the address after the call and jumps; with 16 entries on the stack it halts and changes nothing else (R143;
decisions D3, D8). -/
def Obligations.CallPushesOrOverflows : Prop :=
  ∀ (s : State) (nnn : Addr),
    (s.stack.length = 16 → exec (.callAddr nnn) s = .next { s with run := .halted .stackOverflow }) ∧
    (s.stack.length < 16 →
      ∃ t, exec (.callAddr nnn) s = .next t ∧ t.pc.toNat = nnn.toNat ∧ t.stack = s.stack ++ [s.pc + 2] ∧
        OnlyChanges [.stack] s t ∧ TargetCheckedByNextStep s t)

/-- A call and then a return, with anything in between that leaves the stack as it found it, resume after the call with the
stack of before it (R141, R143, conflict C6). -/
def Obligations.CallThenReturnResumes : Prop :=
  ∀ (s : State) (nnn : Addr), s.stack.length < 16 →
    ∃ t, exec (.callAddr nnn) s = .next t ∧
      ∀ u : State, u.stack = t.stack → ∃ v, exec .ret u = .next v ∧ v.pc = s.pc + 2 ∧ v.stack = s.stack

/-- `1nnn`: `pc` becomes nnn, whatever nnn is (R142). -/
def Obligations.JumpSetsPc : Prop :=
  ∀ (s : State) (nnn : Addr),
    ∃ t, exec (.jpAddr nnn) s = .next t ∧ t.pc.toNat = nnn.toNat ∧ OnlyChanges [] s t ∧ TargetCheckedByNextStep s t

/-- `Bnnn`: `pc` becomes nnn plus the offset register, the full sum (R148; that it does not wrap is decision D16). -/
def Obligations.OffsetJumpAddsRegister : Prop :=
  ∀ (s : State) (nnn : Addr) (r : RegIx), OffsetRegister s nnn r →
    ∃ t, exec (.jpV0Addr nnn) s = .next t ∧ t.pc.toNat = nnn.toNat + (s.reg r).toNat ∧ OnlyChanges [] s t ∧
      TargetCheckedByNextStep s t

/-- The four skips that compare registers or a register and a byte: `pc` moves by 4 when they skip and by 2 when they do not,
and nothing else changes (R144, R145, R146, R147). -/
def Obligations.RegisterSkips : Prop :=
  ∀ (s : State) (x y : RegIx) (kk : Byte),
    (∃ t, exec (.seVxByte x kk) s = .next t ∧ OnlyChanges [] s t ∧
      (s.reg x = kk → t.pc = s.pc + 4) ∧ (s.reg x ≠ kk → t.pc = s.pc + 2)) ∧
    (∃ t, exec (.sneVxByte x kk) s = .next t ∧ OnlyChanges [] s t ∧
      (s.reg x ≠ kk → t.pc = s.pc + 4) ∧ (s.reg x = kk → t.pc = s.pc + 2)) ∧
    (∃ t, exec (.seVxVy x y) s = .next t ∧ OnlyChanges [] s t ∧
      (s.reg x = s.reg y → t.pc = s.pc + 4) ∧ (s.reg x ≠ s.reg y → t.pc = s.pc + 2)) ∧
    (∃ t, exec (.sneVxVy x y) s = .next t ∧ OnlyChanges [] s t ∧
      (s.reg x ≠ s.reg y → t.pc = s.pc + 4) ∧ (s.reg x = s.reg y → t.pc = s.pc + 2))

/-- `Ex9E` and `ExA1`: the key is the one the low nibble of `V[x]` names (R230, R231; the low nibble is decision D20). -/
def Obligations.KeySkips : Prop :=
  ∀ (s : State) (x : RegIx) (k : KeyIx), k.val = (s.reg x).toNat % 16 →
    (∃ t, exec (.skpVx x) s = .next t ∧ OnlyChanges [] s t ∧
      (s.keyPressed k = true → t.pc = s.pc + 4) ∧ (s.keyPressed k = false → t.pc = s.pc + 2)) ∧
    (∃ t, exec (.sknpVx x) s = .next t ∧ OnlyChanges [] s t ∧
      (s.keyPressed k = false → t.pc = s.pc + 4) ∧ (s.keyPressed k = true → t.pc = s.pc + 2))

/-! ## Registers and arithmetic -/

/-- `6xkk` and `7xkk`: the destination takes kk, or the sum modulo 256 with no carry recorded; no other register changes (R161,
R162). -/
def Obligations.LoadAndAddImmediate : Prop :=
  ∀ (s : State) (x : RegIx) (kk : Byte),
    (∃ t, exec (.ldVxByte x kk) s = .next t ∧ t.pc = s.pc + 2 ∧ OnlyChanges [.regs] s t ∧
      t.reg x = kk ∧ ∀ k, k ≠ x → t.reg k = s.reg k) ∧
    (∃ t, exec (.addVxByte x kk) s = .next t ∧ t.pc = s.pc + 2 ∧ OnlyChanges [.regs] s t ∧
      (t.reg x).toNat = ((s.reg x).toNat + kk.toNat) % 256 ∧ ∀ k, k ≠ x → t.reg k = s.reg k)

/-- `8xy0`: the destination takes `V[y]`; VF is not reset whatever the quirk (R163, decision D12). -/
def Obligations.RegisterCopy : Prop :=
  ∀ (s : State) (x y : RegIx),
    ∃ t, exec (.ldVxVy x y) s = .next t ∧ t.pc = s.pc + 2 ∧ OnlyChanges [.regs] s t ∧
      t.reg x = s.reg y ∧ ∀ k, k ≠ x → t.reg k = s.reg k

/-- `8xy1`, `8xy2`, `8xy3`: bit by bit OR, AND, XOR; under the quirk VF ends 0, also as the destination, and without it VF is
written only as the destination (R164, R165, R166; the value VF is reset to is decision D13, the order of writes D11). -/
def Obligations.LogicOperations : Prop :=
  ∀ (s : State) (x y : RegIx) (i : Instr) (f : Bool → Bool → Bool),
    (i = .orVxVy x y ∧ f = or) ∨ (i = .andVxVy x y ∧ f = and) ∨ (i = .xorVxVy x y ∧ f = xor) →
    ∃ t, exec i s = .next t ∧ t.pc = s.pc + 2 ∧ OnlyChanges [.regs] s t ∧
      (s.quirks.vfResetOnLogicOps = true → t.reg VF = 0) ∧
      (x ≠ VF ∨ s.quirks.vfResetOnLogicOps = false →
        ∀ b, b < 8 → (t.reg x).getLsbD b = f ((s.reg x).getLsbD b) ((s.reg y).getLsbD b)) ∧
      ∀ k, k ≠ x → k ≠ VF ∨ s.quirks.vfResetOnLogicOps = false → t.reg k = s.reg k

/-- `8xy4`: the sum modulo 256, and VF is the carry (R168), also where VF is the destination, because it is written last (R176;
decision D11, log entry 13). -/
def Obligations.AddWithCarry : Prop :=
  ∀ (s : State) (x y : RegIx),
    ∃ t, exec (.addVxVy x y) s = .next t ∧ t.pc = s.pc + 2 ∧ OnlyChanges [.regs] s t ∧
      (x ≠ VF → (t.reg x).toNat = ((s.reg x).toNat + (s.reg y).toNat) % 256) ∧
      (255 < (s.reg x).toNat + (s.reg y).toNat → t.reg VF = 1) ∧
      ((s.reg x).toNat + (s.reg y).toNat ≤ 255 → t.reg VF = 0) ∧
      ∀ k, k ≠ x → k ≠ VF → t.reg k = s.reg k

/-- `8xy5` is `V[x] - V[y]` and `8xy7` is `V[y] - V[x]`, modulo 256, both into `V[x]`, and VF is NOT borrow, so 1 when the two
are equal (R169, R171; the equality case is the spec's inference, which code is which is general knowledge, and the order of
writes is decision D11). -/
def Obligations.Subtractions : Prop :=
  ∀ (s : State) (x y : RegIx) (i : Instr) (a b : Nat),
    (i = .subVxVy x y ∧ a = (s.reg x).toNat ∧ b = (s.reg y).toNat) ∨
    (i = .subnVxVy x y ∧ a = (s.reg y).toNat ∧ b = (s.reg x).toNat) →
    ∃ t, exec i s = .next t ∧ t.pc = s.pc + 2 ∧ OnlyChanges [.regs] s t ∧
      (x ≠ VF → (t.reg x).toNat = (a + 256 - b) % 256) ∧
      (b ≤ a → t.reg VF = 1) ∧ (a < b → t.reg VF = 0) ∧
      ∀ k, k ≠ x → k ≠ VF → t.reg k = s.reg k

/-- `8xy6` halves the source and `8xyE` doubles it modulo 256, both into `V[x]`; VF is the bit shifted out; the source is `V[y]`
under the quirk and `V[x]` without it (R170, R172, R173; which code is which is general knowledge, the order of writes is
decision D11). -/
def Obligations.Shifts : Prop :=
  ∀ (s : State) (x y : RegIx),
    (∃ t, exec (.shrVxVy x y) s = .next t ∧ t.pc = s.pc + 2 ∧ OnlyChanges [.regs] s t ∧
      (x ≠ VF → (t.reg x).toNat = (s.reg (ShiftRegister s x y)).toNat / 2) ∧
      (t.reg VF).toNat = (s.reg (ShiftRegister s x y)).toNat % 2 ∧
      ∀ k, k ≠ x → k ≠ VF → t.reg k = s.reg k) ∧
    (∃ t, exec (.shlVxVy x y) s = .next t ∧ t.pc = s.pc + 2 ∧ OnlyChanges [.regs] s t ∧
      (x ≠ VF → (t.reg x).toNat = (s.reg (ShiftRegister s x y)).toNat * 2 % 256) ∧
      (t.reg VF).toNat = (s.reg (ShiftRegister s x y)).toNat / 128 ∧
      ∀ k, k ≠ x → k ≠ VF → t.reg k = s.reg k)

/-- `Cxkk`: the destination takes the drawn byte masked with kk, and the next draw is a fresh one (R174, R175). The byte is a
free value (decision D23, log entry 2), so the statement holds whatever is drawn; the count of draws is the model's own. -/
def Obligations.RandomIsMaskedDraw : Prop :=
  ∀ (s : State) (x : RegIx) (kk : Byte),
    ∃ t, exec (.rndVxByte x kk) s = .next t ∧ t.pc = s.pc + 2 ∧ OnlyChanges [.regs, .draws] s t ∧
      t.draws = s.draws + 1 ∧
      (∀ b, b < 8 → (t.reg x).getLsbD b = ((Config.randomByte s.draws).getLsbD b && kk.getLsbD b)) ∧
      ∀ k, k ≠ x → t.reg k = s.reg k

/-! ## Index register and memory -/

/-- `Annn`: I becomes nnn (R191). -/
def Obligations.SetIndex : Prop :=
  ∀ (s : State) (nnn : Addr),
    ∃ t, exec (.ldIAddr nnn) s = .next t ∧ t.pc = s.pc + 2 ∧ t.I.toNat = nnn.toNat ∧ OnlyChanges [.index] s t

/-- `Fx29`: I becomes five times the digit in the low nibble of `V[x]` (R194, decision D21). -/
def Obligations.GlyphAddress : Prop :=
  ∀ (s : State) (x : RegIx),
    ∃ t, exec (.ldFVx x) s = .next t ∧ t.pc = s.pc + 2 ∧ t.I.toNat = 5 * ((s.reg x).toNat % 16) ∧
      OnlyChanges [.index] s t

/-- `Fx1E`: I becomes the sum modulo 0x1000; VF is written exactly under the quirk, with whether the sum left the address space
(R192, R193, decision D14). -/
def Obligations.AddToIndex : Prop :=
  ∀ (s : State) (x : RegIx),
    ∃ t, exec (.addIVx x) s = .next t ∧ t.pc = s.pc + 2 ∧ OnlyChanges [.regs, .index] s t ∧
      t.I.toNat = (s.I.toNat + (s.reg x).toNat) % 0x1000 ∧
      (s.quirks.indexOverflowSetsVf = true → 0xFFF < s.I.toNat + (s.reg x).toNat → t.reg VF = 1) ∧
      (s.quirks.indexOverflowSetsVf = true → s.I.toNat + (s.reg x).toNat ≤ 0xFFF → t.reg VF = 0) ∧
      (s.quirks.indexOverflowSetsVf = false → t.reg VF = s.reg VF) ∧
      ∀ k, k ≠ VF → t.reg k = s.reg k

/-- `Fx33`: the three decimal digits of `V[x]` at I, I + 1, I + 2, and no other byte of memory changes; it halts, changing
nothing else, when the third address is outside memory (R195; that nothing else changes is decision D8). -/
def Obligations.BcdStore : Prop :=
  ∀ (s : State) (x : RegIx), s.mem.wf →
    (0x1000 ≤ indexBase s + 2 → exec (.ldBVx x) s = .next { s with run := .halted .memoryOutOfBounds }) ∧
    (indexBase s + 2 < 0x1000 →
      ∃ t, exec (.ldBVx x) s = .next t ∧ t.pc = s.pc + 2 ∧ OnlyChanges [.memory] s t ∧
        (t.byteAt (indexBase s)).toNat = (s.reg x).toNat / 100 ∧
        (t.byteAt (indexBase s + 1)).toNat = (s.reg x).toNat / 10 % 10 ∧
        (t.byteAt (indexBase s + 2)).toNat = (s.reg x).toNat % 10 ∧
        ∀ a, a < indexBase s ∨ indexBase s + 2 < a → t.byteAt a = s.byteAt a)

/-- `Fx55`: `V[0]` to `V[x]` at I and on, no other byte of memory changes, and I moves past them exactly under the quirk; it
halts, changing nothing else, when the last address is outside memory (R196; decisions D8, D15). -/
def Obligations.RegisterStore : Prop :=
  ∀ (s : State) (x : RegIx), s.mem.wf →
    (0x1000 ≤ indexBase s + x.val → exec (.ldMemVx x) s = .next { s with run := .halted .memoryOutOfBounds }) ∧
    (indexBase s + x.val < 0x1000 →
      ∃ t, exec (.ldMemVx x) s = .next t ∧ t.pc = s.pc + 2 ∧ OnlyChanges [.memory, .index] s t ∧
        (∀ k : RegIx, k ≤ x → t.byteAt (indexBase s + k.val) = s.reg k) ∧
        (∀ a, a < indexBase s ∨ indexBase s + x.val < a → t.byteAt a = s.byteAt a) ∧
        (s.quirks.indexIncrementOnDumpLoad = true → t.I.toNat = s.I.toNat + x.val + 1) ∧
        (s.quirks.indexIncrementOnDumpLoad = false → t.I = s.I))

/-- `Fx65`: `V[0]` to `V[x]` from I and on, no register above x changes, and I moves past them exactly under the quirk; it
halts, changing nothing else, when the last address is outside memory (R197; decisions D8, D15). -/
def Obligations.RegisterLoad : Prop :=
  ∀ (s : State) (x : RegIx),
    (0x1000 ≤ indexBase s + x.val → exec (.ldVxMem x) s = .next { s with run := .halted .memoryOutOfBounds }) ∧
    (indexBase s + x.val < 0x1000 →
      ∃ t, exec (.ldVxMem x) s = .next t ∧ t.pc = s.pc + 2 ∧ OnlyChanges [.regs, .index] s t ∧
        (∀ k : RegIx, k ≤ x → t.reg k = s.byteAt (indexBase s + k.val)) ∧
        (∀ k : RegIx, x < k → t.reg k = s.reg k) ∧
        (s.quirks.indexIncrementOnDumpLoad = true → t.I.toNat = s.I.toNat + x.val + 1) ∧
        (s.quirks.indexIncrementOnDumpLoad = false → t.I = s.I))

/-- Storing V0 to Vx and loading them again from the same address, with the same memory in between, gives every register back
(the property the source states, W6 of 95_test_vectors.md). -/
def Obligations.StoreLoadRoundTrip : Prop :=
  ∀ (s : State) (x : RegIx), s.mem.wf → indexBase s + x.val < 0x1000 →
    ∃ t, exec (.ldMemVx x) s = .next t ∧
      ∀ u : State, u.mem = t.mem → u.I = s.I →
        ∃ v, exec (.ldVxMem x) u = .next v ∧ ∀ k : RegIx, k ≤ x → v.reg k = s.reg k

/-- The next fetch sees a stored instruction: once `Fx55` has stored the two bytes of an instruction as V0 and V1 where
instructions may be fetched, a step there executes it (R75, which the spec marks as derived). -/
def Obligations.StoredWordIsFetched : Prop :=
  ∀ (s : State) (x : RegIx) (i : Instr), s.mem.wf → 1 ≤ x.val → indexBase s + x.val < 0x1000 → ¬ IllegalPc s.I →
    decode [s.reg 0, s.reg 1] = .ok (i, []) →
    ∃ t, exec (.ldMemVx x) s = .next t ∧
      ∀ u : State, u.mem = t.mem → u.run = .running → u.pc = s.I → step u = exec i u

/-- One byte access (R61, R62): inside memory a read gives the byte, and a write changes that byte alone; at 0x1000 and above
both raise `MemoryOutOfBounds` instead, with no wrap-around. That a write keeps the canonical form is the model's own
representation of memory (log entry 31), no rule of the spec. -/
def Obligations.ByteAccess : Prop :=
  ∀ (m : Memory) (a : Nat) (v : Byte), m.wf →
    (a < 0x1000 → memRead m a = .ok (m.read a) ∧
      ∃ m', memWrite m a v = .ok m' ∧ m'.wf ∧ memRead m' a = .ok v ∧ ∀ b, b ≠ a → m'.read b = m.read b) ∧
    (0x1000 ≤ a → memRead m a = .error .memoryOutOfBounds ∧ memWrite m a v = .error .memoryOutOfBounds)

/-! ## Display -/

/-- `00E0`: every pixel is 0 afterwards, and VF is not written (R211). -/
def Obligations.ClearDisplay : Prop :=
  ∀ s : State, ∃ t, exec .cls s = .next t ∧ t.pc = s.pc + 2 ∧ OnlyChanges [.display] s t ∧ ∀ u v, t.pixel u v = false

/-- `Dxyn`: where its bytes are in memory (none are read when n is 0), every pixel the sprite draws is inverted, every other is
left, and VF is 1 exactly when a drawn pixel was set; otherwise it halts and changes nothing else (R212, R214, R215; decisions
D8, D17, D18, D19). -/
def Obligations.DrawSprite : Prop :=
  ∀ (s : State) (x y : RegIx) (n : Height),
    (0 < n.val ∧ 0x1000 ≤ indexBase s + n.val - 1 →
      exec (.drwVxVyN x y n) s = .next { s with run := .halted .memoryOutOfBounds }) ∧
    (n.val = 0 ∨ indexBase s + n.val - 1 < 0x1000 →
      ∃ t, exec (.drwVxVyN x y n) s = .next t ∧ t.pc = s.pc + 2 ∧ OnlyChanges [.regs, .display] s t ∧
        (∀ u v, Drawn s x y n u v → t.pixel u v = !s.pixel u v) ∧
        (∀ u v, ¬ Drawn s x y n u v → t.pixel u v = s.pixel u v) ∧
        ((∃ u v, Drawn s x y n u v ∧ s.pixel u v = true) → t.reg VF = 1) ∧
        ((∀ u v, Drawn s x y n u v → s.pixel u v = false) → t.reg VF = 0) ∧
        ∀ k, k ≠ VF → t.reg k = s.reg k)

/-- Drawing the same sprite twice restores the display, and the second draw reports a collision exactly where the first set a
pixel (the property the source states, quoted at W7 of 95_test_vectors.md; log entry 8 says how W7's own instance reads). -/
def Obligations.DrawTwiceRestores : Prop :=
  ∀ (s : State) (x y : RegIx) (n : Height), x ≠ VF → y ≠ VF → n.val = 0 ∨ indexBase s + n.val - 1 < 0x1000 →
    ∃ t u, exec (.drwVxVyN x y n) s = .next t ∧ exec (.drwVxVyN x y n) t = .next u ∧
      (∀ a b, u.pixel a b = s.pixel a b) ∧
      (u.reg VF = 1 ↔ ∃ a b, Drawn s x y n a b ∧ s.pixel a b = false)

/-! ## Timers and keys -/

/-- `Fx07`, `Fx15`, `Fx18`: the delay timer into `V[x]`, and `V[x]` into the delay or the sound timer; the sound is then active
exactly when the byte is not 0 (R233, R235, R236). -/
def Obligations.TimerInstructions : Prop :=
  ∀ (s : State) (x : RegIx),
    (∃ t, exec (.ldVxDT x) s = .next t ∧ t.pc = s.pc + 2 ∧ OnlyChanges [.regs] s t ∧
      t.reg x = s.DT ∧ ∀ k, k ≠ x → t.reg k = s.reg k) ∧
    (∃ t, exec (.ldDTVx x) s = .next t ∧ t.pc = s.pc + 2 ∧ OnlyChanges [.delay] s t ∧ t.DT = s.reg x) ∧
    (∃ t, exec (.ldSTVx x) s = .next t ∧ t.pc = s.pc + 2 ∧ OnlyChanges [.sound] s t ∧ t.ST = s.reg x ∧
      (t.soundActive = true ↔ s.reg x ≠ 0))

/-- `Fx0A`: the core waits for a key to write to `V[x]`, and `pc` is already at the next instruction (R234, decision D24). -/
def Obligations.WaitForKeyInstruction : Prop :=
  ∀ (s : State) (x : RegIx),
    ∃ t, exec (.ldVxK x) s = .next t ∧ t.pc = s.pc + 2 ∧ t.run = .waitingForKey x ∧ OnlyChanges [.run] s t

/-- `set_key(k, p)`: key k takes p; on a press edge while the core waits, the target register takes the key's number and the
core runs again, `pc` unchanged; in every other case nothing but the key changes (R262, R263; what an edge is, is decision
D27). -/
def Obligations.KeyInput : Prop :=
  ∀ (s : State) (k : KeyIx) (p : Bool),
    ∃ t, command (.setKey k p) s = .next (t, .ok) ∧ t.pc = s.pc ∧ OnlyChanges [.regs, .keys, .run] s t ∧
      t.keyPressed k = p ∧ (∀ j, j ≠ k → t.keyPressed j = s.keyPressed j) ∧
      (∀ x, s.run = .waitingForKey x → p = true → s.keyPressed k = false →
        t.run = .running ∧ (t.reg x).toNat = k.val ∧ ∀ j, j ≠ x → t.reg j = s.reg j) ∧
      (p = false ∨ s.keyPressed k = true ∨ (∀ x, s.run ≠ .waitingForKey x) →
        t.run = s.run ∧ ∀ j, t.reg j = s.reg j)

/-- From `Fx0A` to the instruction after it: the wait holds through any number of steps, a press of a released key ends it, and
the core then runs with `pc` after the `Fx0A` and the key's number in `V[x]` (R234, R263; decision D24). -/
def Obligations.WaitEndsOnPressEdge : Prop :=
  ∀ (s : State) (x : RegIx) (k : KeyIx) (n : Nat), s.keyPressed k = false →
    ∃ t u, exec (.ldVxK x) s = .next t ∧ command (.runCycles n) t = .next (t, .ok) ∧
      command (.setKey k true) t = .next (u, .ok) ∧ u.run = .running ∧ u.pc = s.pc + 2 ∧ (u.reg x).toNat = k.val

/-- `tick_timers()`: each timer is one less if it was not 0, each on its own, and nothing else changes (R259). -/
def Obligations.TimerTick : Prop :=
  ∀ s : State, ∃ t, command .tickTimers s = .next (t, .ok) ∧ t.pc = s.pc ∧ OnlyChanges [.delay, .sound] s t ∧
    (s.DT = 0 → t.DT = 0) ∧ (s.DT ≠ 0 → t.DT.toNat + 1 = s.DT.toNat) ∧
    (s.ST = 0 → t.ST = 0) ∧ (s.ST ≠ 0 → t.ST.toNat + 1 = s.ST.toNat)

/-- n ticks lower each timer by n and never below 0, in every run state (R259; the run state is decision D25). -/
def Obligations.TimerCountdown : Prop :=
  ∀ (n : Nat) (s : State),
    ∃ t, commands (List.replicate n .tickTimers) s = .next (t, List.replicate n .ok) ∧ t.pc = s.pc ∧
      t.DT.toNat = s.DT.toNat - n ∧ t.ST.toNat = s.ST.toNat - n ∧ OnlyChanges [.delay, .sound] s t

/-- `sound_active()` tells whether the sound counter is nonzero, and changes nothing (R261). -/
def Obligations.SoundOutput : Prop :=
  ∀ s : State, command (.read .soundActive) s = .next (s, .value (.bit (decide (s.ST.toNat ≠ 0))))

/-! ## Rules about the whole machine -/

/-- Only the instructions the spec names write each kind of state: no instruction writes the quirks or a key (R33, R37), only
`Fx15` and `Fx18` a timer (R28, R29), only `2nnn` and `00EE` the stack (R30), only `00E0` and `Dxyn` the display (R32), only
`Fx33` and `Fx55` memory (R34), only those of R26 the index register. -/
def Obligations.OnlyWritersChangeState : Prop :=
  ∀ (i : Instr) (s t : State), exec i s = .next t →
    t.quirks = s.quirks ∧ (∀ k, t.keyPressed k = s.keyPressed k) ∧
    ((∀ x, i ≠ .ldDTVx x) → t.DT = s.DT) ∧ ((∀ x, i ≠ .ldSTVx x) → t.ST = s.ST) ∧
    (writesStack i = false → t.stack = s.stack) ∧
    (writesDisplay i = false → ∀ u v, t.pixel u v = s.pixel u v) ∧
    (writesMemory i = false → ∀ a, t.byteAt a = s.byteAt a) ∧
    (writesIndex s.quirks i = false → t.I = s.I)

/-- A general register changes only as a destination, and VF besides only by the instructions R21 lists (which the spec marks as
derived). -/
def Obligations.OnlyListedInstructionsWriteRegisters : Prop :=
  ∀ (i : Instr) (s t : State) (k : RegIx), exec i s = .next t → writesReg s.quirks k i = false → t.reg k = s.reg k

/-- No instruction reads the sound timer: two cores that differ only in it execute alike and still differ at most in it (R29). -/
def Obligations.SoundTimerIsUnobserved : Prop :=
  ∀ (i : Instr) (s : State) (v : Byte),
    ∃ t w, exec i s = .next t ∧ exec i { s with ST := v } = .next { t with ST := w }

/-- What halts, and what does not: a step of a running core for exactly the causes of R251 (the stack holds at most 16 entries,
which `StepKeepsInv` states), no step of a core that does not run (R136, R137), `run_cycles` only by one of its steps, a load
exactly when the ROM is too large, and no tick, key input or read at all. It rests on the depth 16 (decision D3, log entry 9),
the check of `pc` at the fetch (D9, entry 11), and the step once halted, the failed load and `run_cycles` (D7, D6, D26, entry
23). -/
def Obligations.HaltCauses : Prop :=
  (∀ (s t : State) (r : HaltReason), s.stack.length ≤ 16 → s.run = .running → step s = .next t →
    (t.run = .halted r ↔ StepHaltCause s r)) ∧
  (∀ s t : State, s.run ≠ .running → step s = .next t → t.run = s.run) ∧
  (∀ (n : Nat) (s t : State) (ret : Return) (r : HaltReason), command (.runCycles n) s = .next (t, ret) → t.run = .halted r →
    s.run = .halted r ∨ ∃ u, u.run = .running ∧ step u = .next t) ∧
  (∀ (s t : State) (rom : List Byte) (ret : Return) (r : HaltReason), command (.load rom) s = .next (t, ret) →
    (t.run = .halted r ↔ r = .romTooLarge ∧ 0x1000 < 0x200 + rom.length)) ∧
  (∀ (s t : State) (c : Command) (ret : Return) (r : HaltReason),
    c = .tickTimers ∨ (∃ k p, c = .setKey k p) ∨ (∃ q, c = .read q) → command c s = .next (t, ret) →
    (t.run = .halted r ↔ s.run = .halted r) ∧ ∀ r', ret ≠ .fail r')

/-- Halts are precise: a step that leaves the core halted changed nothing but the run state, `pc` included, and returned the
reason (R134, R253; decision D8). -/
def Obligations.HaltIsPrecise : Prop :=
  ∀ (s t : State) (ret : Return) (r : HaltReason), command .step s = .next (t, ret) → t.run = .halted r →
    t = { s with run := .halted r } ∧ ret = .fail r

/-- A halted core stays halted, with its reason, through every sequence of commands without a load, and keeps everything but its
timers and keys (R254; decisions D7 and D25). -/
def Obligations.HaltedUntilLoad : Prop :=
  ∀ (cs : List Command) (s : State) (r : HaltReason), s.run = .halted r → (∀ c ∈ cs, ∀ rom, c ≠ .load rom) →
    ∃ t rs, commands cs s = .next (t, rs) ∧ t.run = .halted r ∧ t.pc = s.pc ∧
      OnlyChanges [.delay, .sound, .keys] s t

/-- `run_cycles`: no cycles change nothing and succeed; m + n cycles are m and then n, unless one of the m fails, which ends
them; one cycle is one step (R124, decision D26). -/
def Obligations.RunCyclesComposes : Prop :=
  (∀ s : State, command (.runCycles 0) s = .next (s, .ok)) ∧
  (∀ s : State, command (.runCycles 1) s = command .step s) ∧
  (∀ (m n : Nat) (s t : State), command (.runCycles m) s = .next (t, .ok) →
    command (.runCycles (m + n)) s = command (.runCycles n) t) ∧
  (∀ (m n : Nat) (s t : State) (r : HaltReason), command (.runCycles m) s = .next (t, .fail r) →
    command (.runCycles (m + n)) s = .next (t, .fail r))

/-- Every instruction, every step and every command answers a next state: nothing faults, nothing is refused (R15, R103). -/
def Obligations.EveryCommandAnswers : Prop :=
  (∀ (i : Instr) (s : State), ∃ t, exec i s = .next t) ∧ (∀ s : State, ∃ t, step s = .next t) ∧
  (∀ (c : Command) (s : State), ∃ t r, command c s = .next (t, r))

/-- The quirk configuration is what the core was constructed with, through every sequence of commands (R37). -/
def Obligations.QuirksAreImmutable : Prop :=
  (∀ q : Quirks, (State.new q).quirks = q) ∧
  (∀ (cs : List Command) (s t : State) (rs : List Return), commands cs s = .next (t, rs) → t.quirks = s.quirks)

/-- Reads change nothing; the snapshot has 2048 pixels, and pixel (x, y) is its element y * 64 + x (R32, R44; the extent of the
surface is decision D32). -/
def Obligations.ObservationsReadWithoutChange : Prop :=
  (∀ (q : Query) (s : State), ∃ o, command (.read q) s = .next (s, .value o)) ∧
  (∀ s : State, command (.read .framebuffer) s = .next (s, .value (.bitmap s.framebuffer)) ∧ s.framebuffer.length = 2048 ∧
    ∀ (x : Fin 64) (y : Fin 32), s.framebuffer[y.val * 64 + x.val]? = some (s.pixel x y))

/-- The invariant holds at reset. -/
def Obligations.InvAtReset : Prop := Inv State.reset

/-- Every step keeps the invariant: memory canonical, I at most 0x1000 (R27), `pc` at most 0x10FE (R25), at most 16 stack
entries (R30), each the address after a call (R141). -/
def Obligations.StepKeepsInv : Prop :=
  ∀ s t : State, Inv s → step s = .next t → Inv t

/-- Every command keeps the invariant, so every state of every execution from reset has it. -/
def Obligations.CommandKeepsInv : Prop :=
  ∀ (c : Command) (s t : State) (r : Return), Inv s → command c s = .next (t, r) → Inv t

/-- The host's placement runs what it places: with the word of an instruction placed, the next step is that instruction's
execution (the model's convention, log entry 3). -/
def Obligations.PlacedWordRuns : Prop :=
  ∀ (s : State) (w : Word) (i : Instr), s.mem.wf → decodeWord w = some i →
    step (s.withFetchWord 16 w.toNat) = exec i (s.withFetchWord 16 w.toNat)

/-- The core's step is a function of R47's tuple and of the random byte, and of nothing else: it answers for every byte; where it
executes `Cxkk`, `V[x]` becomes the byte masked with kk and nothing but `pc` changes besides; where it does not, the byte plays no
part. The step of the host's interface is that step, its byte the next of the environment's stream, and moves on in the stream
only where `Cxkk` is executed (R42, R47, R174, R175; decision D23; the stream and the place in it are log entry 2's). -/
def Obligations.RandomByteIsAnInput : Prop :=
  (∀ (draw : Byte) (c : CoreState), ∃ c', stepWithDraw draw c = .next c') ∧
  (∀ (draw : Byte) (c : CoreState) (x : RegIx) (kk : Byte), ExecutesRandom c x kk →
    stepWithDraw draw c = .next { c with V := c.V.set x (draw &&& kk), pc := c.pc + 2 }) ∧
  (∀ (draw draw' : Byte) (c : CoreState), (∀ x kk, ¬ ExecutesRandom c x kk) → stepWithDraw draw c = stepWithDraw draw' c) ∧
  (∀ s t : State, step s = .next t →
    stepWithDraw (Config.randomByte s.draws) s.toCoreState = .next t.toCoreState ∧
    (∀ x kk, ExecutesRandom s.toCoreState x kk → t.draws = s.draws + 1) ∧
    ((∀ x kk, ¬ ExecutesRandom s.toCoreState x kk) → t.draws = s.draws))
end

