-- ==== Sys2Proof/Laws/Decode.lean ====
section
/-! SUPPORT. The laws of the encoding: the fields of the words the encoder builds, and the opcode map's masks in terms of the
fields the decoder selects on. -/

namespace Sys2Proof

/-! ### The fields of the formats (R91, R92) -/

theorem toNat_formAddr {op : Nat} (h : op < 16) (nnn : Addr) : (formAddr op nnn).toNat = op * 0x1000 + nnn.toNat := by
  have := nnn.isLt
  simp only [formAddr, BitVec.toNat_ofNat]
  omega

theorem toNat_formXkk {op : Nat} (h : op < 16) (x : RegIx) (kk : Byte) :
    (formXkk op x kk).toNat = op * 0x1000 + x.val * 0x100 + kk.toNat := by
  have := kk.isLt
  simp only [formXkk, BitVec.toNat_ofNat]
  omega

theorem toNat_formXyn {op last : Nat} (h : op < 16) (h' : last < 16) (x y : RegIx) :
    (formXyn op x y last).toNat = op * 0x1000 + x.val * 0x100 + y.val * 0x10 + last := by
  simp only [formXyn, BitVec.toNat_ofNat]
  omega

theorem toNat_formX {op low : Nat} (h : op < 16) (h' : low < 256) (x : RegIx) :
    (formX op x low).toNat = op * 0x1000 + x.val * 0x100 + low := by
  simp only [formX, BitVec.toNat_ofNat]
  omega

theorem fields_formAddr {op : Nat} (h : op < 16) (nnn : Addr) :
    opNibble (formAddr op nnn) = op ∧ fieldNnn (formAddr op nnn) = nnn := by
  have := nnn.isLt
  refine ⟨?_, BitVec.eq_of_toNat_eq ?_⟩ <;>
    simp only [opNibble, fieldNnn, bits, toNat_formAddr h, BitVec.toNat_ofNat] <;> omega

theorem fields_formXkk {op : Nat} (h : op < 16) (x : RegIx) (kk : Byte) :
    opNibble (formXkk op x kk) = op ∧ fieldX (formXkk op x kk) = x ∧ fieldKk (formXkk op x kk) = kk := by
  have := kk.isLt
  refine ⟨?_, Fin.ext ?_, BitVec.eq_of_toNat_eq ?_⟩ <;>
    simp only [opNibble, fieldX, fieldKk, bits, toNat_formXkk h, BitVec.toNat_ofNat, Fin.val_ofNat] <;> omega

theorem fields_formXyn {op last : Nat} (h : op < 16) (h' : last < 16) (x y : RegIx) :
    opNibble (formXyn op x y last) = op ∧ fieldX (formXyn op x y last) = x ∧ fieldY (formXyn op x y last) = y ∧
      bits (formXyn op x y last) 3 0 = last := by
  refine ⟨?_, Fin.ext ?_, Fin.ext ?_, ?_⟩ <;>
    simp only [opNibble, fieldX, fieldY, bits, toNat_formXyn h h', Fin.val_ofNat] <;> omega

theorem fields_formX {op low : Nat} (h : op < 16) (h' : low < 256) (x : RegIx) :
    opNibble (formX op x low) = op ∧ fieldX (formX op x low) = x ∧ bits (formX op x low) 7 0 = low := by
  refine ⟨?_, Fin.ext ?_, ?_⟩ <;> simp only [opNibble, fieldX, bits, toNat_formX h h', Fin.val_ofNat] <;> omega

/-! ### The masks of the opcode map (R100) -/

theorem and_hiMask (n : Nat) (h : n < 0x10000) : n &&& 0xF000 = n / 0x1000 * 0x1000 := by
  refine Nat.eq_of_testBit_eq fun i => ?_
  rw [Nat.testBit_and, show n / 0x1000 * 0x1000 = (n / 2 ^ 12) * 2 ^ 12 from rfl, Nat.testBit_mul_two_pow,
    Nat.testBit_div_two_pow, show (0xF000 : Nat) = (2 ^ 4 - 1) * 2 ^ 12 from rfl, Nat.testBit_mul_two_pow,
    Nat.testBit_two_pow_sub_one]
  by_cases h1 : 12 ≤ i
  · rw [show i - 12 + 12 = i by omega]
    by_cases h2 : i - 12 < 4
    · simp [h1, h2]
    · have h3 : 2 ^ 16 ≤ 2 ^ i := Nat.pow_le_pow_right (by omega) (by omega)
      have : n.testBit i = false := Nat.testBit_lt_two_pow (by omega)
      simp [this]
  · simp [h1]

theorem and_splitMask (n k : Nat) (h : n < 0x10000) (hk : k ≤ 12) :
    n &&& (0xF000 + (2 ^ k - 1)) = n / 0x1000 * 0x1000 + n % 2 ^ k := by
  have hpos : 0 < 2 ^ k := Nat.two_pow_pos k
  have h12 : 2 ^ k ≤ 2 ^ 12 := Nat.pow_le_pow_right (by omega) hk
  have hmask : (0xF000 : Nat) + (2 ^ k - 1) = 0xF000 ||| (2 ^ k - 1) :=
    Nat.two_pow_add_eq_or_of_lt (i := 12) (by omega) 0xF
  have hsum : n / 0x1000 * 0x1000 + n % 2 ^ k = n / 0x1000 * 0x1000 ||| n % 2 ^ k := by
    have := Nat.two_pow_add_eq_or_of_lt (i := 12) (b := n % 2 ^ k)
      (Nat.lt_of_lt_of_le (Nat.mod_lt _ hpos) h12) (n / 0x1000)
    rwa [Nat.mul_comm] at this
  rw [hmask, Nat.and_or_distrib_left, and_hiMask n h, Nat.and_two_pow_sub_one_eq_mod, hsum]

theorem and_F000 (w : Word) : (w &&& 0xF000).toNat = opNibble w * 0x1000 := by
  have := and_hiMask w.toNat w.isLt
  simp only [BitVec.toNat_and, opNibble, bits]
  rw [show (0xF000 : Word).toNat = 0xF000 from rfl, this]
  have := w.isLt
  omega

theorem and_F00F (w : Word) : (w &&& 0xF00F).toNat = opNibble w * 0x1000 + bits w 3 0 := by
  have := and_splitMask w.toNat 4 w.isLt (by omega)
  simp only [BitVec.toNat_and, opNibble, bits]
  rw [show (0xF00F : Word).toNat = 0xF000 + (2 ^ 4 - 1) from rfl, this]
  have := w.isLt
  omega

theorem and_F0FF (w : Word) : (w &&& 0xF0FF).toNat = opNibble w * 0x1000 + bits w 7 0 := by
  have := and_splitMask w.toNat 8 w.isLt (by omega)
  simp only [BitVec.toNat_and, opNibble, bits]
  rw [show (0xF0FF : Word).toNat = 0xF000 + (2 ^ 8 - 1) from rfl, this]
  have := w.isLt
  omega

theorem and_FFFF (w : Word) : w &&& 0xFFFF = w := by
  rw [show (0xFFFF : Word) = BitVec.allOnes 16 from rfl, BitVec.and_allOnes]

/-- A row hits a word exactly when the masked word is the row's value, as numbers. -/
theorem hits_iff (r : Row) (w : Word) : r.hits w = true ↔ (w &&& r.mask).toNat = r.value.toNat := by
  simp only [Row.hits, beq_iff_eq, BitVec.toNat_eq]

theorem hits_formAddr {op : Nat} (h : op < 16) (m : String) {v : Word} (hv : v.toNat = op * 0x1000) (nnn : Addr) :
    (Row.mk m 0xF000 v).hits (formAddr op nnn) = true := by
  rw [hits_iff, and_F000, (fields_formAddr h nnn).1, hv]

theorem hits_formXkk {op : Nat} (h : op < 16) (m : String) {v : Word} (hv : v.toNat = op * 0x1000) (x : RegIx) (kk : Byte) :
    (Row.mk m 0xF000 v).hits (formXkk op x kk) = true := by
  rw [hits_iff, and_F000, (fields_formXkk h x kk).1, hv]

theorem hits_formXyn {op last : Nat} (h : op < 16) (h' : last < 16) (m : String) {v : Word} (hv : v.toNat = op * 0x1000)
    (x y : RegIx) : (Row.mk m 0xF000 v).hits (formXyn op x y last) = true := by
  rw [hits_iff, and_F000, (fields_formXyn h h' x y).1, hv]

theorem hits_formXy {op last : Nat} (h : op < 16) (h' : last < 16) (m : String) {v : Word}
    (hv : v.toNat = op * 0x1000 + last) (x y : RegIx) : (Row.mk m 0xF00F v).hits (formXyn op x y last) = true := by
  rw [hits_iff, and_F00F, (fields_formXyn h h' x y).1, (fields_formXyn h h' x y).2.2.2, hv]

theorem hits_formX {op low : Nat} (h : op < 16) (h' : low < 256) (m : String) {v : Word}
    (hv : v.toNat = op * 0x1000 + low) (x : RegIx) : (Row.mk m 0xF0FF v).hits (formX op x low) = true := by
  rw [hits_iff, and_F0FF, (fields_formX h h' x).1, (fields_formX h h' x).2.2, hv]

/-! ### The bytes of a word (R64, R90) -/

theorem toNat_wordOfBytes (hi lo : Byte) : (wordOfBytes hi lo).toNat = hi.toNat * 0x100 + lo.toNat := by
  have := lo.isLt
  simp only [wordOfBytes, BitVec.toNat_append]
  rw [Nat.shiftLeft_eq, Nat.mul_comm, ← Nat.two_pow_add_eq_or_of_lt (by omega) hi.toNat]

@[simp] theorem wordOfBytes_hiByte_loByte (w : Word) : wordOfBytes (hiByte w) (loByte w) = w := by
  have := w.isLt
  refine BitVec.eq_of_toNat_eq ?_
  simp only [toNat_wordOfBytes, hiByte, loByte, BitVec.extractLsb'_toNat, Nat.shiftRight_eq_div_pow]
  omega

@[simp] theorem hiByte_wordOfBytes (hi lo : Byte) : hiByte (wordOfBytes hi lo) = hi := by
  have := hi.isLt
  have := lo.isLt
  refine BitVec.eq_of_toNat_eq ?_
  simp only [hiByte, BitVec.extractLsb'_toNat, toNat_wordOfBytes, Nat.shiftRight_eq_div_pow]
  omega

@[simp] theorem loByte_wordOfBytes (hi lo : Byte) : loByte (wordOfBytes hi lo) = lo := by
  have := lo.isLt
  refine BitVec.eq_of_toNat_eq ?_
  simp only [loByte, BitVec.extractLsb'_toNat, toNat_wordOfBytes, Nat.shiftRight_eq_div_pow]
  omega

/-- The byte decoder on a whole word is the word decoder (R90). -/
theorem decode_word (w : Word) (rest : List Byte) :
    decode (hiByte w :: loByte w :: rest)
      = match decodeWord w with
        | some i => .ok (i, rest)
        | none => .error (.unknownInstruction w) := by
  cases h : decodeWord w <;> simp only [decode, wordOfBytes_hiByte_loByte, h]

theorem decodeTableWord_eq (nbits w : Nat) : decodeTableWord nbits w = decodeWord (tableWord nbits w) := by
  simp only [decodeTableWord, tableBytes, decode_word]
  cases decodeWord (tableWord nbits w) <;> rfl

theorem tableWord_toNat (w : Word) : tableWord 16 w.toNat = w := by
  have := w.isLt
  refine BitVec.eq_of_toNat_eq ?_
  simp only [tableWord, BitVec.toNat_ofNat]
  omega

end Sys2Proof
end

