-- ==== Sys2Proof/Laws/State.lean ====
section
/-! SUPPORT. What each update of the state does to each field: one lemma per field per update, true by `rfl`, so that no later
proof unfolds a record update. -/

namespace Sys2Proof.Machine.State

/-! ### `setReg` -/

@[simp] theorem setReg_V (s : State) (x : RegIx) (v : Byte) : (s.setReg x v).V = s.V.set x v := rfl
@[simp] theorem setReg_I (s : State) (x : RegIx) (v : Byte) : (s.setReg x v).I = s.I := rfl
@[simp] theorem setReg_pc (s : State) (x : RegIx) (v : Byte) : (s.setReg x v).pc = s.pc := rfl
@[simp] theorem setReg_DT (s : State) (x : RegIx) (v : Byte) : (s.setReg x v).DT = s.DT := rfl
@[simp] theorem setReg_ST (s : State) (x : RegIx) (v : Byte) : (s.setReg x v).ST = s.ST := rfl
@[simp] theorem setReg_stack (s : State) (x : RegIx) (v : Byte) : (s.setReg x v).stack = s.stack := rfl
@[simp] theorem setReg_disp (s : State) (x : RegIx) (v : Byte) : (s.setReg x v).disp = s.disp := rfl
@[simp] theorem setReg_key (s : State) (x : RegIx) (v : Byte) : (s.setReg x v).key = s.key := rfl
@[simp] theorem setReg_mem (s : State) (x : RegIx) (v : Byte) : (s.setReg x v).mem = s.mem := rfl
@[simp] theorem setReg_run (s : State) (x : RegIx) (v : Byte) : (s.setReg x v).run = s.run := rfl
@[simp] theorem setReg_quirks (s : State) (x : RegIx) (v : Byte) : (s.setReg x v).quirks = s.quirks := rfl
@[simp] theorem setReg_draws (s : State) (x : RegIx) (v : Byte) : (s.setReg x v).draws = s.draws := rfl

/-! ### `setRegs` -/

@[simp] theorem setRegs_V (s : State) (V : Vector Byte 16) : (s.setRegs V).V = V := rfl
@[simp] theorem setRegs_I (s : State) (V : Vector Byte 16) : (s.setRegs V).I = s.I := rfl
@[simp] theorem setRegs_pc (s : State) (V : Vector Byte 16) : (s.setRegs V).pc = s.pc := rfl
@[simp] theorem setRegs_DT (s : State) (V : Vector Byte 16) : (s.setRegs V).DT = s.DT := rfl
@[simp] theorem setRegs_ST (s : State) (V : Vector Byte 16) : (s.setRegs V).ST = s.ST := rfl
@[simp] theorem setRegs_stack (s : State) (V : Vector Byte 16) : (s.setRegs V).stack = s.stack := rfl
@[simp] theorem setRegs_disp (s : State) (V : Vector Byte 16) : (s.setRegs V).disp = s.disp := rfl
@[simp] theorem setRegs_key (s : State) (V : Vector Byte 16) : (s.setRegs V).key = s.key := rfl
@[simp] theorem setRegs_mem (s : State) (V : Vector Byte 16) : (s.setRegs V).mem = s.mem := rfl
@[simp] theorem setRegs_run (s : State) (V : Vector Byte 16) : (s.setRegs V).run = s.run := rfl
@[simp] theorem setRegs_quirks (s : State) (V : Vector Byte 16) : (s.setRegs V).quirks = s.quirks := rfl
@[simp] theorem setRegs_draws (s : State) (V : Vector Byte 16) : (s.setRegs V).draws = s.draws := rfl

/-! ### `setI` -/

@[simp] theorem setI_V (s : State) (v : Word) : (s.setI v).V = s.V := rfl
@[simp] theorem setI_I (s : State) (v : Word) : (s.setI v).I = v := rfl
@[simp] theorem setI_pc (s : State) (v : Word) : (s.setI v).pc = s.pc := rfl
@[simp] theorem setI_DT (s : State) (v : Word) : (s.setI v).DT = s.DT := rfl
@[simp] theorem setI_ST (s : State) (v : Word) : (s.setI v).ST = s.ST := rfl
@[simp] theorem setI_stack (s : State) (v : Word) : (s.setI v).stack = s.stack := rfl
@[simp] theorem setI_disp (s : State) (v : Word) : (s.setI v).disp = s.disp := rfl
@[simp] theorem setI_key (s : State) (v : Word) : (s.setI v).key = s.key := rfl
@[simp] theorem setI_mem (s : State) (v : Word) : (s.setI v).mem = s.mem := rfl
@[simp] theorem setI_run (s : State) (v : Word) : (s.setI v).run = s.run := rfl
@[simp] theorem setI_quirks (s : State) (v : Word) : (s.setI v).quirks = s.quirks := rfl
@[simp] theorem setI_draws (s : State) (v : Word) : (s.setI v).draws = s.draws := rfl

/-! ### `setPc` -/

@[simp] theorem setPc_V (s : State) (v : Word) : (s.setPc v).V = s.V := rfl
@[simp] theorem setPc_I (s : State) (v : Word) : (s.setPc v).I = s.I := rfl
@[simp] theorem setPc_pc (s : State) (v : Word) : (s.setPc v).pc = v := rfl
@[simp] theorem setPc_DT (s : State) (v : Word) : (s.setPc v).DT = s.DT := rfl
@[simp] theorem setPc_ST (s : State) (v : Word) : (s.setPc v).ST = s.ST := rfl
@[simp] theorem setPc_stack (s : State) (v : Word) : (s.setPc v).stack = s.stack := rfl
@[simp] theorem setPc_disp (s : State) (v : Word) : (s.setPc v).disp = s.disp := rfl
@[simp] theorem setPc_key (s : State) (v : Word) : (s.setPc v).key = s.key := rfl
@[simp] theorem setPc_mem (s : State) (v : Word) : (s.setPc v).mem = s.mem := rfl
@[simp] theorem setPc_run (s : State) (v : Word) : (s.setPc v).run = s.run := rfl
@[simp] theorem setPc_quirks (s : State) (v : Word) : (s.setPc v).quirks = s.quirks := rfl
@[simp] theorem setPc_draws (s : State) (v : Word) : (s.setPc v).draws = s.draws := rfl

/-! ### `setDT` -/

@[simp] theorem setDT_V (s : State) (v : Byte) : (s.setDT v).V = s.V := rfl
@[simp] theorem setDT_I (s : State) (v : Byte) : (s.setDT v).I = s.I := rfl
@[simp] theorem setDT_pc (s : State) (v : Byte) : (s.setDT v).pc = s.pc := rfl
@[simp] theorem setDT_DT (s : State) (v : Byte) : (s.setDT v).DT = v := rfl
@[simp] theorem setDT_ST (s : State) (v : Byte) : (s.setDT v).ST = s.ST := rfl
@[simp] theorem setDT_stack (s : State) (v : Byte) : (s.setDT v).stack = s.stack := rfl
@[simp] theorem setDT_disp (s : State) (v : Byte) : (s.setDT v).disp = s.disp := rfl
@[simp] theorem setDT_key (s : State) (v : Byte) : (s.setDT v).key = s.key := rfl
@[simp] theorem setDT_mem (s : State) (v : Byte) : (s.setDT v).mem = s.mem := rfl
@[simp] theorem setDT_run (s : State) (v : Byte) : (s.setDT v).run = s.run := rfl
@[simp] theorem setDT_quirks (s : State) (v : Byte) : (s.setDT v).quirks = s.quirks := rfl
@[simp] theorem setDT_draws (s : State) (v : Byte) : (s.setDT v).draws = s.draws := rfl

/-! ### `setST` -/

@[simp] theorem setST_V (s : State) (v : Byte) : (s.setST v).V = s.V := rfl
@[simp] theorem setST_I (s : State) (v : Byte) : (s.setST v).I = s.I := rfl
@[simp] theorem setST_pc (s : State) (v : Byte) : (s.setST v).pc = s.pc := rfl
@[simp] theorem setST_DT (s : State) (v : Byte) : (s.setST v).DT = s.DT := rfl
@[simp] theorem setST_ST (s : State) (v : Byte) : (s.setST v).ST = v := rfl
@[simp] theorem setST_stack (s : State) (v : Byte) : (s.setST v).stack = s.stack := rfl
@[simp] theorem setST_disp (s : State) (v : Byte) : (s.setST v).disp = s.disp := rfl
@[simp] theorem setST_key (s : State) (v : Byte) : (s.setST v).key = s.key := rfl
@[simp] theorem setST_mem (s : State) (v : Byte) : (s.setST v).mem = s.mem := rfl
@[simp] theorem setST_run (s : State) (v : Byte) : (s.setST v).run = s.run := rfl
@[simp] theorem setST_quirks (s : State) (v : Byte) : (s.setST v).quirks = s.quirks := rfl
@[simp] theorem setST_draws (s : State) (v : Byte) : (s.setST v).draws = s.draws := rfl

/-! ### `setStack` -/

@[simp] theorem setStack_V (s : State) (v : List Word) : (s.setStack v).V = s.V := rfl
@[simp] theorem setStack_I (s : State) (v : List Word) : (s.setStack v).I = s.I := rfl
@[simp] theorem setStack_pc (s : State) (v : List Word) : (s.setStack v).pc = s.pc := rfl
@[simp] theorem setStack_DT (s : State) (v : List Word) : (s.setStack v).DT = s.DT := rfl
@[simp] theorem setStack_ST (s : State) (v : List Word) : (s.setStack v).ST = s.ST := rfl
@[simp] theorem setStack_stack (s : State) (v : List Word) : (s.setStack v).stack = v := rfl
@[simp] theorem setStack_disp (s : State) (v : List Word) : (s.setStack v).disp = s.disp := rfl
@[simp] theorem setStack_key (s : State) (v : List Word) : (s.setStack v).key = s.key := rfl
@[simp] theorem setStack_mem (s : State) (v : List Word) : (s.setStack v).mem = s.mem := rfl
@[simp] theorem setStack_run (s : State) (v : List Word) : (s.setStack v).run = s.run := rfl
@[simp] theorem setStack_quirks (s : State) (v : List Word) : (s.setStack v).quirks = s.quirks := rfl
@[simp] theorem setStack_draws (s : State) (v : List Word) : (s.setStack v).draws = s.draws := rfl

/-! ### `setDisp` -/

@[simp] theorem setDisp_V (s : State) (v : Display) : (s.setDisp v).V = s.V := rfl
@[simp] theorem setDisp_I (s : State) (v : Display) : (s.setDisp v).I = s.I := rfl
@[simp] theorem setDisp_pc (s : State) (v : Display) : (s.setDisp v).pc = s.pc := rfl
@[simp] theorem setDisp_DT (s : State) (v : Display) : (s.setDisp v).DT = s.DT := rfl
@[simp] theorem setDisp_ST (s : State) (v : Display) : (s.setDisp v).ST = s.ST := rfl
@[simp] theorem setDisp_stack (s : State) (v : Display) : (s.setDisp v).stack = s.stack := rfl
@[simp] theorem setDisp_disp (s : State) (v : Display) : (s.setDisp v).disp = v := rfl
@[simp] theorem setDisp_key (s : State) (v : Display) : (s.setDisp v).key = s.key := rfl
@[simp] theorem setDisp_mem (s : State) (v : Display) : (s.setDisp v).mem = s.mem := rfl
@[simp] theorem setDisp_run (s : State) (v : Display) : (s.setDisp v).run = s.run := rfl
@[simp] theorem setDisp_quirks (s : State) (v : Display) : (s.setDisp v).quirks = s.quirks := rfl
@[simp] theorem setDisp_draws (s : State) (v : Display) : (s.setDisp v).draws = s.draws := rfl

/-! ### `setKeyState` -/

@[simp] theorem setKeyState_V (s : State) (k : KeyIx) (p : Bool) : (s.setKeyState k p).V = s.V := rfl
@[simp] theorem setKeyState_I (s : State) (k : KeyIx) (p : Bool) : (s.setKeyState k p).I = s.I := rfl
@[simp] theorem setKeyState_pc (s : State) (k : KeyIx) (p : Bool) : (s.setKeyState k p).pc = s.pc := rfl
@[simp] theorem setKeyState_DT (s : State) (k : KeyIx) (p : Bool) : (s.setKeyState k p).DT = s.DT := rfl
@[simp] theorem setKeyState_ST (s : State) (k : KeyIx) (p : Bool) : (s.setKeyState k p).ST = s.ST := rfl
@[simp] theorem setKeyState_stack (s : State) (k : KeyIx) (p : Bool) : (s.setKeyState k p).stack = s.stack := rfl
@[simp] theorem setKeyState_disp (s : State) (k : KeyIx) (p : Bool) : (s.setKeyState k p).disp = s.disp := rfl
@[simp] theorem setKeyState_key (s : State) (k : KeyIx) (p : Bool) : (s.setKeyState k p).key = s.key.set k p := rfl
@[simp] theorem setKeyState_mem (s : State) (k : KeyIx) (p : Bool) : (s.setKeyState k p).mem = s.mem := rfl
@[simp] theorem setKeyState_run (s : State) (k : KeyIx) (p : Bool) : (s.setKeyState k p).run = s.run := rfl
@[simp] theorem setKeyState_quirks (s : State) (k : KeyIx) (p : Bool) : (s.setKeyState k p).quirks = s.quirks := rfl
@[simp] theorem setKeyState_draws (s : State) (k : KeyIx) (p : Bool) : (s.setKeyState k p).draws = s.draws := rfl

/-! ### `setMem` -/

@[simp] theorem setMem_V (s : State) (m : Memory) : (s.setMem m).V = s.V := rfl
@[simp] theorem setMem_I (s : State) (m : Memory) : (s.setMem m).I = s.I := rfl
@[simp] theorem setMem_pc (s : State) (m : Memory) : (s.setMem m).pc = s.pc := rfl
@[simp] theorem setMem_DT (s : State) (m : Memory) : (s.setMem m).DT = s.DT := rfl
@[simp] theorem setMem_ST (s : State) (m : Memory) : (s.setMem m).ST = s.ST := rfl
@[simp] theorem setMem_stack (s : State) (m : Memory) : (s.setMem m).stack = s.stack := rfl
@[simp] theorem setMem_disp (s : State) (m : Memory) : (s.setMem m).disp = s.disp := rfl
@[simp] theorem setMem_key (s : State) (m : Memory) : (s.setMem m).key = s.key := rfl
@[simp] theorem setMem_mem (s : State) (m : Memory) : (s.setMem m).mem = m := rfl
@[simp] theorem setMem_run (s : State) (m : Memory) : (s.setMem m).run = s.run := rfl
@[simp] theorem setMem_quirks (s : State) (m : Memory) : (s.setMem m).quirks = s.quirks := rfl
@[simp] theorem setMem_draws (s : State) (m : Memory) : (s.setMem m).draws = s.draws := rfl

/-! ### `setRun` -/

@[simp] theorem setRun_V (s : State) (r : RunState) : (s.setRun r).V = s.V := rfl
@[simp] theorem setRun_I (s : State) (r : RunState) : (s.setRun r).I = s.I := rfl
@[simp] theorem setRun_pc (s : State) (r : RunState) : (s.setRun r).pc = s.pc := rfl
@[simp] theorem setRun_DT (s : State) (r : RunState) : (s.setRun r).DT = s.DT := rfl
@[simp] theorem setRun_ST (s : State) (r : RunState) : (s.setRun r).ST = s.ST := rfl
@[simp] theorem setRun_stack (s : State) (r : RunState) : (s.setRun r).stack = s.stack := rfl
@[simp] theorem setRun_disp (s : State) (r : RunState) : (s.setRun r).disp = s.disp := rfl
@[simp] theorem setRun_key (s : State) (r : RunState) : (s.setRun r).key = s.key := rfl
@[simp] theorem setRun_mem (s : State) (r : RunState) : (s.setRun r).mem = s.mem := rfl
@[simp] theorem setRun_run (s : State) (r : RunState) : (s.setRun r).run = r := rfl
@[simp] theorem setRun_quirks (s : State) (r : RunState) : (s.setRun r).quirks = s.quirks := rfl
@[simp] theorem setRun_draws (s : State) (r : RunState) : (s.setRun r).draws = s.draws := rfl

/-! ### `drawn` -/

@[simp] theorem drawn_V (s : State) : (s.drawn).V = s.V := rfl
@[simp] theorem drawn_I (s : State) : (s.drawn).I = s.I := rfl
@[simp] theorem drawn_pc (s : State) : (s.drawn).pc = s.pc := rfl
@[simp] theorem drawn_DT (s : State) : (s.drawn).DT = s.DT := rfl
@[simp] theorem drawn_ST (s : State) : (s.drawn).ST = s.ST := rfl
@[simp] theorem drawn_stack (s : State) : (s.drawn).stack = s.stack := rfl
@[simp] theorem drawn_disp (s : State) : (s.drawn).disp = s.disp := rfl
@[simp] theorem drawn_key (s : State) : (s.drawn).key = s.key := rfl
@[simp] theorem drawn_mem (s : State) : (s.drawn).mem = s.mem := rfl
@[simp] theorem drawn_run (s : State) : (s.drawn).run = s.run := rfl
@[simp] theorem drawn_quirks (s : State) : (s.drawn).quirks = s.quirks := rfl
@[simp] theorem drawn_draws (s : State) : (s.drawn).draws = s.draws + 1 := rfl

/-! ### `advance` -/

@[simp] theorem advance_V (s : State) : (s.advance).V = s.V := rfl
@[simp] theorem advance_I (s : State) : (s.advance).I = s.I := rfl
@[simp] theorem advance_pc (s : State) : (s.advance).pc = s.pc + 2 := rfl
@[simp] theorem advance_DT (s : State) : (s.advance).DT = s.DT := rfl
@[simp] theorem advance_ST (s : State) : (s.advance).ST = s.ST := rfl
@[simp] theorem advance_stack (s : State) : (s.advance).stack = s.stack := rfl
@[simp] theorem advance_disp (s : State) : (s.advance).disp = s.disp := rfl
@[simp] theorem advance_key (s : State) : (s.advance).key = s.key := rfl
@[simp] theorem advance_mem (s : State) : (s.advance).mem = s.mem := rfl
@[simp] theorem advance_run (s : State) : (s.advance).run = s.run := rfl
@[simp] theorem advance_quirks (s : State) : (s.advance).quirks = s.quirks := rfl
@[simp] theorem advance_draws (s : State) : (s.advance).draws = s.draws := rfl

/-! ### `skipIf` -/

@[simp] theorem skipIf_V (s : State) (b : Bool) : (s.skipIf b).V = s.V := rfl
@[simp] theorem skipIf_I (s : State) (b : Bool) : (s.skipIf b).I = s.I := rfl
@[simp] theorem skipIf_pc (s : State) (b : Bool) : (s.skipIf b).pc = if b then s.pc + 4 else s.pc + 2 := rfl
@[simp] theorem skipIf_DT (s : State) (b : Bool) : (s.skipIf b).DT = s.DT := rfl
@[simp] theorem skipIf_ST (s : State) (b : Bool) : (s.skipIf b).ST = s.ST := rfl
@[simp] theorem skipIf_stack (s : State) (b : Bool) : (s.skipIf b).stack = s.stack := rfl
@[simp] theorem skipIf_disp (s : State) (b : Bool) : (s.skipIf b).disp = s.disp := rfl
@[simp] theorem skipIf_key (s : State) (b : Bool) : (s.skipIf b).key = s.key := rfl
@[simp] theorem skipIf_mem (s : State) (b : Bool) : (s.skipIf b).mem = s.mem := rfl
@[simp] theorem skipIf_run (s : State) (b : Bool) : (s.skipIf b).run = s.run := rfl
@[simp] theorem skipIf_quirks (s : State) (b : Bool) : (s.skipIf b).quirks = s.quirks := rfl
@[simp] theorem skipIf_draws (s : State) (b : Bool) : (s.skipIf b).draws = s.draws := rfl

/-! ### `halt` -/

@[simp] theorem halt_V (s : State) (r : HaltReason) : (s.halt r).V = s.V := rfl
@[simp] theorem halt_I (s : State) (r : HaltReason) : (s.halt r).I = s.I := rfl
@[simp] theorem halt_pc (s : State) (r : HaltReason) : (s.halt r).pc = s.pc := rfl
@[simp] theorem halt_DT (s : State) (r : HaltReason) : (s.halt r).DT = s.DT := rfl
@[simp] theorem halt_ST (s : State) (r : HaltReason) : (s.halt r).ST = s.ST := rfl
@[simp] theorem halt_stack (s : State) (r : HaltReason) : (s.halt r).stack = s.stack := rfl
@[simp] theorem halt_disp (s : State) (r : HaltReason) : (s.halt r).disp = s.disp := rfl
@[simp] theorem halt_key (s : State) (r : HaltReason) : (s.halt r).key = s.key := rfl
@[simp] theorem halt_mem (s : State) (r : HaltReason) : (s.halt r).mem = s.mem := rfl
@[simp] theorem halt_run (s : State) (r : HaltReason) : (s.halt r).run = .halted r := rfl
@[simp] theorem halt_quirks (s : State) (r : HaltReason) : (s.halt r).quirks = s.quirks := rfl
@[simp] theorem halt_draws (s : State) (r : HaltReason) : (s.halt r).draws = s.draws := rfl

/-! ### The updates that write by a quirk -/

@[simp] theorem setLogicResult_I (s : State) (x : RegIx) (v : Byte) : (s.setLogicResult x v).I = s.I := by
  unfold setLogicResult; split <;> rfl
@[simp] theorem setLogicResult_pc (s : State) (x : RegIx) (v : Byte) : (s.setLogicResult x v).pc = s.pc := by
  unfold setLogicResult; split <;> rfl
@[simp] theorem setLogicResult_DT (s : State) (x : RegIx) (v : Byte) : (s.setLogicResult x v).DT = s.DT := by
  unfold setLogicResult; split <;> rfl
@[simp] theorem setLogicResult_ST (s : State) (x : RegIx) (v : Byte) : (s.setLogicResult x v).ST = s.ST := by
  unfold setLogicResult; split <;> rfl
@[simp] theorem setLogicResult_stack (s : State) (x : RegIx) (v : Byte) : (s.setLogicResult x v).stack = s.stack := by
  unfold setLogicResult; split <;> rfl
@[simp] theorem setLogicResult_disp (s : State) (x : RegIx) (v : Byte) : (s.setLogicResult x v).disp = s.disp := by
  unfold setLogicResult; split <;> rfl
@[simp] theorem setLogicResult_key (s : State) (x : RegIx) (v : Byte) : (s.setLogicResult x v).key = s.key := by
  unfold setLogicResult; split <;> rfl
@[simp] theorem setLogicResult_mem (s : State) (x : RegIx) (v : Byte) : (s.setLogicResult x v).mem = s.mem := by
  unfold setLogicResult; split <;> rfl
@[simp] theorem setLogicResult_run (s : State) (x : RegIx) (v : Byte) : (s.setLogicResult x v).run = s.run := by
  unfold setLogicResult; split <;> rfl
@[simp] theorem setLogicResult_quirks (s : State) (x : RegIx) (v : Byte) : (s.setLogicResult x v).quirks = s.quirks := by
  unfold setLogicResult; split <;> rfl
@[simp] theorem setLogicResult_draws (s : State) (x : RegIx) (v : Byte) : (s.setLogicResult x v).draws = s.draws := by
  unfold setLogicResult; split <;> rfl

@[simp] theorem setIndexFlag_I (s : State) (sum : Nat) : (s.setIndexFlag sum).I = s.I := by
  unfold setIndexFlag; split <;> rfl
@[simp] theorem setIndexFlag_pc (s : State) (sum : Nat) : (s.setIndexFlag sum).pc = s.pc := by
  unfold setIndexFlag; split <;> rfl
@[simp] theorem setIndexFlag_DT (s : State) (sum : Nat) : (s.setIndexFlag sum).DT = s.DT := by
  unfold setIndexFlag; split <;> rfl
@[simp] theorem setIndexFlag_ST (s : State) (sum : Nat) : (s.setIndexFlag sum).ST = s.ST := by
  unfold setIndexFlag; split <;> rfl
@[simp] theorem setIndexFlag_stack (s : State) (sum : Nat) : (s.setIndexFlag sum).stack = s.stack := by
  unfold setIndexFlag; split <;> rfl
@[simp] theorem setIndexFlag_disp (s : State) (sum : Nat) : (s.setIndexFlag sum).disp = s.disp := by
  unfold setIndexFlag; split <;> rfl
@[simp] theorem setIndexFlag_key (s : State) (sum : Nat) : (s.setIndexFlag sum).key = s.key := by
  unfold setIndexFlag; split <;> rfl
@[simp] theorem setIndexFlag_mem (s : State) (sum : Nat) : (s.setIndexFlag sum).mem = s.mem := by
  unfold setIndexFlag; split <;> rfl
@[simp] theorem setIndexFlag_run (s : State) (sum : Nat) : (s.setIndexFlag sum).run = s.run := by
  unfold setIndexFlag; split <;> rfl
@[simp] theorem setIndexFlag_quirks (s : State) (sum : Nat) : (s.setIndexFlag sum).quirks = s.quirks := by
  unfold setIndexFlag; split <;> rfl
@[simp] theorem setIndexFlag_draws (s : State) (sum : Nat) : (s.setIndexFlag sum).draws = s.draws := by
  unfold setIndexFlag; split <;> rfl

@[simp] theorem postIncrement_V (s : State) (x : RegIx) : (s.postIncrement x).V = s.V := by
  unfold postIncrement; split <;> rfl
@[simp] theorem postIncrement_pc (s : State) (x : RegIx) : (s.postIncrement x).pc = s.pc := by
  unfold postIncrement; split <;> rfl
@[simp] theorem postIncrement_DT (s : State) (x : RegIx) : (s.postIncrement x).DT = s.DT := by
  unfold postIncrement; split <;> rfl
@[simp] theorem postIncrement_ST (s : State) (x : RegIx) : (s.postIncrement x).ST = s.ST := by
  unfold postIncrement; split <;> rfl
@[simp] theorem postIncrement_stack (s : State) (x : RegIx) : (s.postIncrement x).stack = s.stack := by
  unfold postIncrement; split <;> rfl
@[simp] theorem postIncrement_disp (s : State) (x : RegIx) : (s.postIncrement x).disp = s.disp := by
  unfold postIncrement; split <;> rfl
@[simp] theorem postIncrement_key (s : State) (x : RegIx) : (s.postIncrement x).key = s.key := by
  unfold postIncrement; split <;> rfl
@[simp] theorem postIncrement_mem (s : State) (x : RegIx) : (s.postIncrement x).mem = s.mem := by
  unfold postIncrement; split <;> rfl
@[simp] theorem postIncrement_run (s : State) (x : RegIx) : (s.postIncrement x).run = s.run := by
  unfold postIncrement; split <;> rfl
@[simp] theorem postIncrement_quirks (s : State) (x : RegIx) : (s.postIncrement x).quirks = s.quirks := by
  unfold postIncrement; split <;> rfl
@[simp] theorem postIncrement_draws (s : State) (x : RegIx) : (s.postIncrement x).draws = s.draws := by
  unfold postIncrement; split <;> rfl

@[simp] theorem setResultFlag_I (s : State) (x : RegIx) (v w : Byte) : (s.setResultFlag x v w).I = s.I := rfl
@[simp] theorem setResultFlag_pc (s : State) (x : RegIx) (v w : Byte) : (s.setResultFlag x v w).pc = s.pc := rfl
@[simp] theorem setResultFlag_DT (s : State) (x : RegIx) (v w : Byte) : (s.setResultFlag x v w).DT = s.DT := rfl
@[simp] theorem setResultFlag_ST (s : State) (x : RegIx) (v w : Byte) : (s.setResultFlag x v w).ST = s.ST := rfl
@[simp] theorem setResultFlag_stack (s : State) (x : RegIx) (v w : Byte) : (s.setResultFlag x v w).stack = s.stack := rfl
@[simp] theorem setResultFlag_disp (s : State) (x : RegIx) (v w : Byte) : (s.setResultFlag x v w).disp = s.disp := rfl
@[simp] theorem setResultFlag_key (s : State) (x : RegIx) (v w : Byte) : (s.setResultFlag x v w).key = s.key := rfl
@[simp] theorem setResultFlag_mem (s : State) (x : RegIx) (v w : Byte) : (s.setResultFlag x v w).mem = s.mem := rfl
@[simp] theorem setResultFlag_run (s : State) (x : RegIx) (v w : Byte) : (s.setResultFlag x v w).run = s.run := rfl
@[simp] theorem setResultFlag_quirks (s : State) (x : RegIx) (v w : Byte) : (s.setResultFlag x v w).quirks = s.quirks := rfl
@[simp] theorem setResultFlag_draws (s : State) (x : RegIx) (v w : Byte) : (s.setResultFlag x v w).draws = s.draws := rfl

/-! ### The accessors -/

@[simp] theorem nextPc_eq (s : State) : s.nextPc = s.pc + 2 := rfl

/-- Reading a register after one was written. -/
theorem reg_setReg (s : State) (x k : RegIx) (v : Byte) : (s.setReg x v).reg k = if k = x then v else s.reg k := by
  simp only [reg, setReg, Fin.getElem_fin, Vector.getElem_set]
  by_cases h : k = x
  · simp [h]
  · have : x.val ≠ k.val := fun e => h (Fin.ext e.symm)
    simp [h, this]

@[simp] theorem reg_setReg_same (s : State) (x : RegIx) (v : Byte) : (s.setReg x v).reg x = v := by simp [reg_setReg]

/-- Two registers written in turn: the second write wins (R176). -/
theorem reg_setResultFlag (s : State) (x k : RegIx) (v w : Byte) :
    (s.setResultFlag x v w).reg k = if k = VF then w else if k = x then v else s.reg k := by
  simp only [setResultFlag, reg_setReg]

theorem reg_setLogicResult (s : State) (x k : RegIx) (v : Byte) :
    (s.setLogicResult x v).reg k
      = if s.quirks.vfResetOnLogicOps ∧ k = VF then 0 else if k = x then v else s.reg k := by
  unfold setLogicResult
  split <;> rename_i h <;> simp [h, reg_setResultFlag, reg_setReg]

theorem reg_setIndexFlag (s : State) (sum : Nat) (k : RegIx) :
    (s.setIndexFlag sum).reg k
      = if s.quirks.indexOverflowSetsVf ∧ k = VF then flagByte (indexOverflow sum) else s.reg k := by
  unfold setIndexFlag
  split <;> rename_i h <;> simp [h, reg_setReg]

theorem postIncrement_I (s : State) (x : RegIx) :
    (s.postIncrement x).I
      = if s.quirks.indexIncrementOnDumpLoad then s.I + BitVec.ofNat 16 (x.val + 1) else s.I := by
  unfold postIncrement
  split <;> rfl

/-- A register read looks at the register file alone. -/
theorem reg_congr {s t : State} (h : t.V = s.V) (k : RegIx) : t.reg k = s.reg k := by simp only [reg, h]

/-- A key read looks at the keypad latch alone. -/
theorem keyPressed_congr {s t : State} (h : t.key = s.key) (k : KeyIx) : t.keyPressed k = s.keyPressed k := by
  simp only [keyPressed, h]

/-- A memory read looks at memory alone. -/
theorem byteAt_congr {s t : State} (h : t.mem = s.mem) (a : Nat) : t.byteAt a = s.byteAt a := by simp only [byteAt, h]

theorem keyPressed_setKeyState (s : State) (k j : KeyIx) (p : Bool) :
    (s.setKeyState k p).keyPressed j = if j = k then p else s.keyPressed j := by
  simp only [keyPressed, setKeyState, Fin.getElem_fin, Vector.getElem_set]
  by_cases h : j = k
  · simp [h]
  · have : k.val ≠ j.val := fun e => h (Fin.ext e.symm)
    simp [h, this]

end Sys2Proof.Machine.State
end

