-- ==== Sys2Proof/Laws/Display.lean ====
section
/-! SUPPORT. The laws of the display: what one flip changes, what drawing a list of pixels does, and which pixels a sprite draws. -/

namespace Sys2Proof.Machine

theorem pixelOf_clearDisplay (x : Fin 64) (y : Fin 32) : pixelOf clearDisplay x y = false := by
  simp [pixelOf, clearDisplay]

/-- A flip inverts its pixel and leaves every other alone. -/
theorem pixelOf_flipPixel (d : Display) (x u : Fin 64) (y v : Fin 32) :
    pixelOf (flipPixel d x y) u v = if u = x ∧ v = y then !pixelOf d u v else pixelOf d u v := by
  simp only [pixelOf, flipPixel, Fin.getElem_fin, Vector.getElem_set]
  by_cases hv : v = y
  · subst hv
    by_cases hu : u = x
    · simp [hu]
    · have : x.val ≠ u.val := fun e => hu (Fin.ext e.symm)
      simp [hu, this]
  · have : y.val ≠ v.val := fun e => hv (Fin.ext e.symm)
    simp [hv, this]

/-- Drawing a list of distinct pixels: exactly those are inverted, and a collision is reported exactly when one of them was set. -/
theorem foldl_drawPixel (cells : List (Fin 64 × Fin 32)) (h : cells.Nodup) (d : Display) (hit : Bool) :
    (∀ u v, pixelOf (cells.foldl drawPixel (d, hit)).1 u v
      = if (u, v) ∈ cells then !pixelOf d u v else pixelOf d u v) ∧
    (cells.foldl drawPixel (d, hit)).2 = (hit || cells.any fun c => pixelOf d c.1 c.2) := by
  induction cells generalizing d hit with
  | nil => simp
  | cons c cells ih =>
    obtain ⟨hc, hn⟩ := List.nodup_cons.mp h
    obtain ⟨h1, h2⟩ := ih hn (flipPixel d c.1 c.2) (hit || pixelOf d c.1 c.2)
    have other : ∀ u v, (u, v) ∈ cells → pixelOf (flipPixel d c.1 c.2) u v = pixelOf d u v := by
      intro u v huv
      have : ¬ (u = c.1 ∧ v = c.2) := fun e => hc (by rwa [e.1, e.2] at huv)
      rw [pixelOf_flipPixel, if_neg this]
    constructor
    · intro u v
      rw [List.foldl_cons, drawPixel, h1]
      by_cases huv : (u, v) ∈ cells
      · simp [huv, other u v huv]
      · by_cases e : u = c.1 ∧ v = c.2
        · simp [pixelOf_flipPixel, e, hc]
        · have : (u, v) ≠ c := fun q => e (by rw [← q]; exact ⟨rfl, rfl⟩)
          simp [huv, pixelOf_flipPixel, e, this]
    · rw [List.foldl_cons, drawPixel, h2, List.any_cons, Bool.or_assoc]
      congr 2
      rw [Bool.eq_iff_iff]
      simp only [List.any_eq_true]
      exact ⟨fun ⟨a, ha, hp⟩ => ⟨a, ha, by rwa [other a.1 a.2 ha] at hp⟩,
        fun ⟨a, ha, hp⟩ => ⟨a, ha, by rwa [other a.1 a.2 ha]⟩⟩

/-- The pixel of a sprite with offset `(c, r)` from the start lands on `(u, v)` (R215). -/
theorem placePixel_eq_some (edge : EdgePolicy) (px py : Nat) (u : Fin 64) (v : Fin 32) :
    placePixel edge px py = some (u, v) ↔
      match edge with
      | .wrap => px % 64 = u.val ∧ py % 32 = v.val
      | .clip => px = u.val ∧ py = v.val := by
  have hu := u.isLt
  have hv := v.isLt
  cases edge with
  | wrap => simp [placePixel, Fin.ext_iff, Fin.ofNat]
  | clip =>
    simp only [placePixel]
    split
    · simp only [Option.some.injEq, Prod.mk.injEq, Fin.ext_iff, Fin.val_ofNat]
      omega
    · simp only [reduceCtorEq, false_iff]
      omega

theorem mem_rowCells (edge : EdgePolicy) (x0 py : Nat) (row : Byte) (p : Fin 64 × Fin 32) :
    p ∈ rowCells edge x0 py row ↔ ∃ c < 8, row.getLsbD (7 - c) = true ∧ placePixel edge (x0 + c) py = some p := by
  simp only [rowCells, List.mem_filterMap, List.mem_range]
  refine exists_congr fun c => and_congr_right fun _ => ?_
  split <;> rename_i h <;> simp [h]

/-- The pixels a sprite draws: one for each 1-bit of each row that lands on the grid (R212, R215, R218). -/
theorem mem_spriteCells (edge : EdgePolicy) (x0 py : Nat) (rows : List Byte) (p : Fin 64 × Fin 32) :
    p ∈ spriteCells edge x0 py rows ↔
      ∃ r row c, rows[r]? = some row ∧ c < 8 ∧ row.getLsbD (7 - c) = true ∧
        placePixel edge (x0 + c) (py + r) = some p := by
  induction rows generalizing py with
  | nil => simp [spriteCells]
  | cons row rows ih =>
    simp only [spriteCells, List.mem_append, mem_rowCells, ih]
    constructor
    · rintro (⟨c, hc, hb, hp⟩ | ⟨r, row', c, hr, hc, hb, hp⟩)
      · exact ⟨0, row, c, by simp, hc, hb, by simpa using hp⟩
      · exact ⟨r + 1, row', c, by simpa using hr, hc, hb, by rw [← hp]; congr 1; omega⟩
    · rintro ⟨r, row', c, hr, hc, hb, hp⟩
      cases r with
      | zero =>
        obtain rfl : row = row' := by simpa using hr
        exact .inl ⟨c, hc, hb, by simpa using hp⟩
      | succ r =>
        exact .inr ⟨r, row', c, by simpa using hr, hc, hb, by rw [← hp]; congr 1; omega⟩

/-- No two pixels of a sprite of at most 32 rows land on the same display pixel (R215). -/
theorem placePixel_injective {edge : EdgePolicy} {x0 y0 c c' r r' : Nat} {p : Fin 64 × Fin 32}
    (hc : c < 8) (hc' : c' < 8) (hr : r < 32) (hr' : r' < 32)
    (h : placePixel edge (x0 + c) (y0 + r) = some p) (h' : placePixel edge (x0 + c') (y0 + r') = some p) :
    c = c' ∧ r = r' := by
  obtain ⟨u, v⟩ := p
  rw [placePixel_eq_some] at h h'
  cases edge <;> simp only at h h' <;> omega

theorem nodup_rowCells (edge : EdgePolicy) (x0 py : Nat) (row : Byte) : (rowCells edge x0 py row).Nodup := by
  refine List.pairwise_filterMap.mpr (List.Pairwise.imp_of_mem ?_ (List.nodup_range (n := 8)))
  intro c c' hc hc' hne b hb b' hb' hbb
  subst hbb
  simp only [List.mem_range, Option.ite_none_right_eq_some] at hc hc' hb hb'
  exact hne (placePixel_injective (r := 0) (r' := 0) hc hc' (by omega) (by omega) hb.2 hb'.2).1

theorem nodup_spriteCells (edge : EdgePolicy) (x0 y0 : Nat) (rows : List Byte) (h : rows.length ≤ 32) :
    (spriteCells edge x0 y0 rows).Nodup := by
  induction rows generalizing y0 with
  | nil => exact List.nodup_nil
  | cons row rows ih =>
    refine List.nodup_append'.mpr ⟨nodup_rowCells edge x0 y0 row, ih (y0 + 1) (by simp at h; omega), ?_⟩
    intro p hp hp'
    obtain ⟨c, hc, -, e⟩ := (mem_rowCells ..).mp hp
    obtain ⟨r, row', c', hr, hc', -, e'⟩ := (mem_spriteCells ..).mp hp'
    have hlt : r < rows.length := (List.getElem?_eq_some_iff.mp hr).1
    simp only [List.length_cons] at h
    have := (placePixel_injective (y0 := y0) (r := 0) (r' := r + 1) hc hc' (by omega) (by omega) e
      (by rw [← e']; congr 1; omega)).2
    omega

/-- `draw` of at most 32 rows (R210, R212, R214): every pixel of the sprite is inverted, no other changes, and a collision is
reported exactly when one of them was set. -/
theorem drawSprite_spec (edge : EdgePolicy) (x0 y0 : Nat) (rows : List Byte) (d : Display) (h : rows.length ≤ 32) :
    (∀ u v, pixelOf (drawSprite edge x0 y0 rows d).1 u v
      = if (u, v) ∈ spriteCells edge x0 y0 rows then !pixelOf d u v else pixelOf d u v) ∧
    (drawSprite edge x0 y0 rows d).2 = (spriteCells edge x0 y0 rows).any fun c => pixelOf d c.1 c.2 := by
  have := foldl_drawPixel _ (nodup_spriteCells edge x0 y0 rows h) d false
  simpa [drawSprite] using this

/-- Two displays with the same pixels are the same display. -/
theorem display_ext {d e : Display} (h : ∀ u v, pixelOf d u v = pixelOf e u v) : d = e := by
  refine Vector.ext fun y hy => Vector.ext fun x hx => ?_
  exact h ⟨x, hx⟩ ⟨y, hy⟩

end Sys2Proof.Machine
end

