-- ==== Sys2Proof/Laws/Memory.lean ====
section
/-! SUPPORT. The laws of memory: reading after writing, the canonical form, and what the range-checked accesses answer. -/

namespace Sys2Proof.Machine

namespace Memory

/-! ### Lookup and read -/

theorem lookup_consCell (a b : Nat) (v : Byte) (m : Memory) (h : m.lookup a = none) :
    ((consCell a v m).lookup b).getD (background b) = if b = a then v else (m.lookup b).getD (background b) := by
  unfold consCell
  by_cases hb : b = a
  · subst hb
    split <;> simp_all [lookup]
  · split <;> simp [lookup, hb]

/-- Below every listed address nothing is listed. -/
theorem lookup_of_below {m : Memory} {a : Nat} (h : ∀ c ∈ m, a < c.1) : m.lookup a = none := by
  induction m with
  | nil => rfl
  | cons c m ih =>
    have hc : a ≠ c.1 := Nat.ne_of_lt (h c (by simp))
    simp only [lookup, hc, if_false]
    exact ih fun d hd => h d (by simp [hd])

/-- Reading after one byte was written, in a canonical memory (R61, R62). -/
theorem read_write {m : Memory} (hm : m.Pairwise (fun c d => c.1 < d.1)) (a b : Nat) (v : Byte) :
    (m.write a v).read b = if b = a then v else m.read b := by
  induction m with
  | nil => exact lookup_consCell a b v [] rfl
  | cons c m ih =>
    obtain ⟨hc, hm'⟩ := List.pairwise_cons.mp hm
    by_cases h1 : a < c.1
    · simp only [write, h1, if_true]
      refine lookup_consCell a b v (c :: m) (lookup_of_below ?_)
      intro d hd
      rcases List.mem_cons.mp hd with rfl | hd
      · exact h1
      · exact Nat.lt_trans h1 (hc d hd)
    · by_cases h2 : a = c.1
      · subst h2
        have key := lookup_consCell c.1 b v m (lookup_of_below hc)
        simp only [write, Nat.lt_irrefl, if_false, if_true, read, key, lookup]
        by_cases hb : b = c.1 <;> simp [hb]
      · simp only [write, h1, h2, if_false]
        by_cases hb : b = c.1
        · have h3 : c.1 ≠ a := Ne.symm h2
          simp [read, lookup, hb, h3]
        · simpa [read, lookup, hb] using ih hm'

/-! ### The canonical form is kept -/

theorem mem_consCell {a : Nat} {v : Byte} {m : Memory} {c : Host.Cell} (h : c ∈ consCell a v m) :
    (c = (a, v) ∧ v ≠ background a) ∨ c ∈ m := by
  unfold consCell at h
  split at h
  · exact .inr h
  · rcases List.mem_cons.mp h with rfl | h
    · exact .inl ⟨rfl, by assumption⟩
    · exact .inr h

theorem mem_write {a : Nat} {v : Byte} {m : Memory} {c : Host.Cell} (h : c ∈ m.write a v) :
    (c = (a, v) ∧ v ≠ background a) ∨ c ∈ m := by
  induction m with
  | nil => exact mem_consCell h
  | cons d m ih =>
    unfold write at h
    split at h
    · exact mem_consCell h
    · split at h
      · exact (mem_consCell h).imp_right (List.mem_cons_of_mem d)
      · rcases List.mem_cons.mp h with rfl | h
        · exact .inr (by simp)
        · exact (ih h).imp_right (List.mem_cons_of_mem d)

theorem pairwise_consCell {a : Nat} {v : Byte} {m : Memory} (hm : m.Pairwise (fun c d => c.1 < d.1))
    (h : ∀ c ∈ m, a < c.1) : (consCell a v m).Pairwise (fun c d => c.1 < d.1) := by
  unfold consCell
  split
  · exact hm
  · exact List.pairwise_cons.mpr ⟨h, hm⟩

theorem pairwise_write {m : Memory} (hm : m.Pairwise (fun c d => c.1 < d.1)) (a : Nat) (v : Byte) :
    (m.write a v).Pairwise (fun c d => c.1 < d.1) := by
  induction m with
  | nil => exact pairwise_consCell hm (by simp)
  | cons c m ih =>
    obtain ⟨hc, hm'⟩ := List.pairwise_cons.mp hm
    unfold write
    split
    · rename_i h1
      refine pairwise_consCell hm fun d hd => ?_
      rcases List.mem_cons.mp hd with rfl | hd
      · exact h1
      · exact Nat.lt_trans h1 (hc d hd)
    · split
      · rename_i h2
        exact pairwise_consCell hm' (h2 ▸ hc)
      · rename_i h1 h2
        refine List.pairwise_cons.mpr ⟨fun d hd => ?_, ih hm'⟩
        rcases mem_write hd with ⟨rfl, -⟩ | hd
        · exact Nat.lt_of_le_of_ne (Nat.le_of_not_lt h1) (Ne.symm h2)
        · exact hc d hd

/-- A write inside the address space keeps the canonical form. -/
theorem wf_write {m : Memory} (hm : m.wf) {a : Nat} (ha : a < Config.memSize) (v : Byte) : (m.write a v).wf := by
  refine ⟨pairwise_write hm.1 a v, fun c hc => ?_⟩
  rcases mem_write hc with ⟨rfl, hv⟩ | hc
  · exact ⟨ha, hv⟩
  · exact hm.2 c hc

theorem wf_nil : Memory.wf [] := ⟨List.Pairwise.nil, by simp⟩

/-! ### Lists of bytes -/

theorem pairwise_writeList {m : Memory} (hm : m.Pairwise (fun c d => c.1 < d.1)) (a : Nat) (bs : List Byte) :
    (m.writeList a bs).Pairwise (fun c d => c.1 < d.1) := by
  induction bs generalizing m a with
  | nil => exact hm
  | cons b bs ih => exact ih (pairwise_write hm a b) (a + 1)

/-- Writing a list of bytes that ends inside the address space keeps the canonical form. -/
theorem wf_writeList {m : Memory} (hm : m.wf) {a : Nat} {bs : List Byte} (h : a + bs.length ≤ Config.memSize) :
    (m.writeList a bs).wf := by
  induction bs generalizing m a with
  | nil => exact hm
  | cons b bs ih =>
    simp only [List.length_cons] at h
    exact ih (wf_write hm (by omega) b) (by omega)

/-- Reading after a list of bytes was written: the byte of the list where one was stored, the old byte elsewhere. -/
theorem read_writeList {m : Memory} (hm : m.Pairwise (fun c d => c.1 < d.1)) (a : Nat) (bs : List Byte) (b : Nat) :
    (m.writeList a bs).read b = if a ≤ b then (bs[b - a]?).getD (m.read b) else m.read b := by
  induction bs generalizing m a with
  | nil => simp [writeList]
  | cons v vs ih =>
    rw [writeList, ih (pairwise_write hm a v), read_write hm]
    rcases Nat.lt_trichotomy b a with h | rfl | h
    · have : ¬ a + 1 ≤ b := by omega
      have : ¬ a ≤ b := by omega
      have : b ≠ a := by omega
      simp [*]
    · simp
    · have h1 : a + 1 ≤ b := by omega
      have h2 : a ≤ b := by omega
      have h3 : b ≠ a := by omega
      have h4 : b - a = (b - (a + 1)) + 1 := by omega
      simp [h1, h2, h3, h4]

@[simp] theorem length_readList (m : Memory) (a count : Nat) : (m.readList a count).length = count := by
  induction count generalizing a with
  | zero => rfl
  | succ n ih => simp [readList, ih]

theorem getElem?_readList (m : Memory) (a count k : Nat) :
    (m.readList a count)[k]? = if k < count then some (m.read (a + k)) else none := by
  induction count generalizing a k with
  | zero => simp [readList]
  | succ n ih =>
    cases k with
    | zero => simp [readList]
    | succ k =>
      have : a + 1 + k = a + (k + 1) := by omega
      simp [readList, ih, this]

end Memory

/-! ### The range-checked accesses -/

theorem checkRange_cases (base count : Nat) :
    (count = 0 ∨ base + count ≤ Config.memSize) ∧ checkRange base count = .ok () ∨
    (0 < count ∧ Config.memSize < base + count) ∧ checkRange base count = .error .memoryOutOfBounds := by
  unfold checkRange
  split
  · exact .inr ⟨by omega, rfl⟩
  · exact .inl ⟨by omega, rfl⟩

/-- In range, the checked reads give the bytes. -/
theorem memReads_eq (m : Memory) {a count : Nat} (h : a + count ≤ Config.memSize) :
    memReads m a count = .ok (m.readList a count) := by
  induction count generalizing a with
  | zero => rfl
  | succ n ih =>
    have ha : a < Config.memSize := by omega
    simp [memReads, memRead, ha, ih (show a + 1 + n ≤ Config.memSize by omega), Memory.readList, bind, Except.bind]

/-- In range, the checked writes store the bytes. -/
theorem memWrites_eq (m : Memory) {a : Nat} {bs : List Byte} (h : a + bs.length ≤ Config.memSize) :
    memWrites m a bs = .ok (m.writeList a bs) := by
  induction bs generalizing m a with
  | nil => rfl
  | cons b bs ih =>
    simp only [List.length_cons] at h
    have ha : a < Config.memSize := by omega
    simp [memWrites, memWrite, ha, ih (m.write a b) (show a + 1 + bs.length ≤ Config.memSize by omega), Memory.writeList,
      bind, Except.bind]

end Sys2Proof.Machine
end

