-- ==== Sys2Proof/Laws/Ops.lean ====
section
/-! SUPPORT. What the shared operations of Machine/Ops.lean answer: the end of an instruction, the fetch, the installed ROM. -/

namespace Sys2Proof.Machine

@[simp] theorem State.commit_ok (s t : State) : s.commit (.ok t) = .next t := rfl

@[simp] theorem State.commit_error (s : State) (r : HaltReason) : s.commit (.error r) = .next (s.halt r) := rfl

@[simp] theorem State.done_eq (t : State) : t.done = .next t := rfl

/-- An instruction that checks a range first halts where the range leaves memory, and goes on otherwise (R199). -/
theorem State.commit_checkRange (s : State) (base count : Nat) (k : Except HaltReason State) :
    s.commit (do checkRange base count; k)
      = if 0 < count ∧ Config.memSize < base + count then .next (s.halt .memoryOutOfBounds) else s.commit k := by
  rcases checkRange_cases base count with ⟨h, e⟩ | ⟨h, e⟩
  · rw [if_neg (by omega), e]
    rfl
  · rw [if_pos h, e]
    rfl

theorem legalPc_iff (a : Word) : legalPc a = true ↔ a.toNat % 2 = 0 ∧ 0x200 ≤ a.toNat ∧ a.toNat ≤ 0xFFE := by
  simp only [legalPc, Bool.and_eq_true, beq_iff_eq, decide_eq_true_eq, and_assoc]
  exact Iff.rfl

/-- The front of a step: one of an illegal `pc`, an unknown word, or an instruction (R130, R131, R135, R255). -/
theorem State.fetchInstr_eq (s : State) :
    s.fetchInstr
      = if legalPc s.pc then
          match decodeWord s.wordAtPc with
          | some i => .ok i
          | none => .error .unknownInstruction
        else .error .memoryOutOfBounds := by
  unfold State.fetchInstr checkPc
  by_cases h : legalPc s.pc = true
  · have hb := (legalPc_iff s.pc).mp h
    have h0 : s.pc.toNat < Config.memSize := by simp only [Config.memSize]; omega
    have h1 : s.pc.toNat + 1 < Config.memSize := by simp only [Config.memSize]; omega
    cases hd : decodeWord (wordOfBytes (s.mem.read s.pc.toNat) (s.mem.read (s.pc.toNat + 1))) <;>
      simp only [h, if_true, fetch, memRead, h0, h1, decodeOrHalt, State.wordAtPc, State.byteAt, bind, Except.bind, hd]
  · simp only [h, if_false, bind, Except.bind, Bool.false_eq_true]

theorem romFits_iff (rom : List Byte) : romFits rom = true ↔ 0x200 + rom.length ≤ 0x1000 := decide_eq_true_iff

/-- What each address holds after a ROM that fits was installed (R45, R281). -/
theorem State.byteAt_installRom (s : State) (rom : List Byte) (a : Nat) :
    (s.installRom rom).byteAt a
      = if 0x200 ≤ a then (rom[a - 0x200]?).getD (Memory.background a) else Memory.background a :=
  Memory.read_writeList List.Pairwise.nil Config.romBase rom a

theorem Memory.background_font {a : Nat} (h : a < 80) : Config.font[a]? = some (Memory.background a) := by
  have hl : a < Config.font.length := h
  simp [Memory.background, Config.fontBase, hl]

theorem Memory.background_zero {a : Nat} (h : 80 ≤ a) : Memory.background a = 0 := by
  have hl : Config.font.length ≤ a := h
  simp [Memory.background, Config.fontBase, hl]

end Sys2Proof.Machine
end

