-- ==== Sys2Proof/Laws/Registers.lean ====
section
/-! SUPPORT. The laws of the register file that `Fx55` and `Fx65` rest on. -/

namespace Sys2Proof.Machine

/-- Loading a list of bytes from register k on: register j holds the byte at its place in the list, if there is one. -/
theorem getElem_fillRegs (V : Vector Byte 16) (k : Nat) (bs : List Byte) (j : Nat) (hj : j < 16) :
    (fillRegs V k bs)[j] = if k ≤ j then (bs[j - k]?).getD V[j] else V[j] := by
  induction bs generalizing V k with
  | nil => simp [fillRegs]
  | cons b bs ih =>
    rw [fillRegs, ih]
    rcases Nat.lt_trichotomy j k with h | rfl | h
    · have h1 : ¬ k + 1 ≤ j := by omega
      have h2 : ¬ k ≤ j := by omega
      have h3 : k ≠ j := by omega
      simp [h1, h2, h3]
    · have h1 : ¬ j + 1 ≤ j := by omega
      simp
    · have h1 : k + 1 ≤ j := by omega
      have h2 : k ≤ j := by omega
      have h3 : k ≠ j := by omega
      have h4 : j - k = (j - (k + 1)) + 1 := by omega
      simp [h1, h2, h3, h4]

@[simp] theorem State.length_regsUpTo (s : State) (x : RegIx) : (s.regsUpTo x).length = x.val + 1 := by
  have := x.isLt
  simp only [regsUpTo, List.length_take, Vector.length_toList]
  omega

/-- The k-th byte `Fx55` stores is `V[k]`, for k up to x. -/
theorem State.getElem?_regsUpTo (s : State) (x k : RegIx) (h : k ≤ x) : (s.regsUpTo x)[k.val]? = some (s.reg k) := by
  have hk : k.val < x.val + 1 := Nat.lt_succ_of_le h
  simp [regsUpTo, hk, reg]

end Sys2Proof.Machine
end

