-- ==== Sys2Proof/Laws/Exec.lean ====
section
/-! SUPPORT. One lemma per instruction: the state its execution leaves. Proofs about an instruction cite its lemma and never
unfold the meaning. None is a simp lemma: a proof says which instruction it is about. -/

namespace Sys2Proof.Machine

/-! ### Control transfer -/

theorem exec_ret (s : State) :
    exec .ret s = .next (match s.stack.getLast? with
      | none => s.halt .stackUnderflow
      | some top => (s.setStack s.stack.dropLast).setPc top) := by
  simp only [exec, execRet]
  cases s.stack.getLast? <;> rfl

theorem exec_jpAddr (nnn : Addr) (s : State) : exec (.jpAddr nnn) s = .next (s.setPc (addrWord nnn)) := rfl

theorem exec_callAddr (nnn : Addr) (s : State) :
    exec (.callAddr nnn) s = .next (if Config.stackDepth ≤ s.stack.length then s.halt .stackOverflow
      else (s.setStack (s.stack ++ [s.pc + 2])).setPc (addrWord nnn)) := by
  simp only [exec, execCallAddr]
  split <;> rfl

theorem exec_seVxByte (x : RegIx) (kk : Byte) (s : State) :
    exec (.seVxByte x kk) s = .next (s.skipIf (s.reg x == kk)) := rfl

theorem exec_sneVxByte (x : RegIx) (kk : Byte) (s : State) :
    exec (.sneVxByte x kk) s = .next (s.skipIf (s.reg x != kk)) := rfl

theorem exec_seVxVy (x y : RegIx) (s : State) : exec (.seVxVy x y) s = .next (s.skipIf (s.reg x == s.reg y)) := rfl

theorem exec_sneVxVy (x y : RegIx) (s : State) : exec (.sneVxVy x y) s = .next (s.skipIf (s.reg x != s.reg y)) := rfl

theorem exec_jpV0Addr (nnn : Addr) (s : State) :
    exec (.jpV0Addr nnn) s = .next (s.setPc (addrWord nnn + (jumpOffset s nnn).zeroExtend 16)) := rfl

/-! ### Registers and arithmetic -/

theorem exec_ldVxByte (x : RegIx) (kk : Byte) (s : State) :
    exec (.ldVxByte x kk) s = .next (s.setReg x kk).advance := rfl

theorem exec_addVxByte (x : RegIx) (kk : Byte) (s : State) :
    exec (.addVxByte x kk) s = .next (s.setReg x (s.reg x + kk)).advance := rfl

theorem exec_ldVxVy (x y : RegIx) (s : State) : exec (.ldVxVy x y) s = .next (s.setReg x (s.reg y)).advance := rfl

theorem exec_orVxVy (x y : RegIx) (s : State) :
    exec (.orVxVy x y) s = .next (s.setLogicResult x (s.reg x ||| s.reg y)).advance := rfl

theorem exec_andVxVy (x y : RegIx) (s : State) :
    exec (.andVxVy x y) s = .next (s.setLogicResult x (s.reg x &&& s.reg y)).advance := rfl

theorem exec_xorVxVy (x y : RegIx) (s : State) :
    exec (.xorVxVy x y) s = .next (s.setLogicResult x (s.reg x ^^^ s.reg y)).advance := rfl

theorem exec_addVxVy (x y : RegIx) (s : State) :
    exec (.addVxVy x y) s
      = .next (s.setResultFlag x (s.reg x + s.reg y) (flagByte (carry (s.reg x) (s.reg y)))).advance := rfl

theorem exec_subVxVy (x y : RegIx) (s : State) :
    exec (.subVxVy x y) s
      = .next (s.setResultFlag x (s.reg x - s.reg y) (flagByte (notBorrow (s.reg x) (s.reg y)))).advance := rfl

theorem exec_shrVxVy (x y : RegIx) (s : State) :
    exec (.shrVxVy x y) s
      = .next (s.setResultFlag x (shiftSource s x y >>> 1) (bitOutRight (shiftSource s x y))).advance := rfl

theorem exec_subnVxVy (x y : RegIx) (s : State) :
    exec (.subnVxVy x y) s
      = .next (s.setResultFlag x (s.reg y - s.reg x) (flagByte (notBorrow (s.reg y) (s.reg x)))).advance := rfl

theorem exec_shlVxVy (x y : RegIx) (s : State) :
    exec (.shlVxVy x y) s
      = .next (s.setResultFlag x (shiftSource s x y <<< 1) (bitOutLeft (shiftSource s x y))).advance := rfl

theorem exec_rndVxByte (x : RegIx) (kk : Byte) (s : State) :
    exec (.rndVxByte x kk) s = .next (s.setReg x (Config.randomByte s.draws &&& kk)).drawn.advance := rfl

/-! ### Index register and memory -/

theorem exec_ldIAddr (nnn : Addr) (s : State) : exec (.ldIAddr nnn) s = .next (s.setI (addrWord nnn)).advance := rfl

theorem exec_addIVx (x : RegIx) (s : State) :
    exec (.addIVx x) s
      = .next ((s.setI (BitVec.ofNat 16 (indexSum s x % Config.memSize))).setIndexFlag (indexSum s x)).advance := rfl

theorem exec_ldFVx (x : RegIx) (s : State) : exec (.ldFVx x) s = .next (s.setI (glyphAddress s x)).advance := rfl

theorem exec_ldBVx (x : RegIx) (s : State) :
    exec (.ldBVx x) s = .next (if Config.memSize < indexBase s + 3 then s.halt .memoryOutOfBounds
      else (s.setMem (s.mem.writeList (indexBase s) (bcdDigits (s.reg x)))).advance) := by
  simp only [exec, execLdBVx, State.commit_checkRange]
  by_cases h : Config.memSize < indexBase s + 3
  · simp [h]
  · have hl : indexBase s + (bcdDigits (s.reg x)).length ≤ Config.memSize := by simpa [bcdDigits] using h
    simp [h, memWrites_eq s.mem hl, bind, Except.bind]

theorem exec_ldMemVx (x : RegIx) (s : State) :
    exec (.ldMemVx x) s = .next (if Config.memSize < indexBase s + (x.val + 1) then s.halt .memoryOutOfBounds
      else ((s.setMem (s.mem.writeList (indexBase s) (s.regsUpTo x))).postIncrement x).advance) := by
  simp only [exec, execLdMemVx, State.commit_checkRange]
  by_cases h : Config.memSize < indexBase s + (x.val + 1)
  · simp [h]
  · have hl : indexBase s + (s.regsUpTo x).length ≤ Config.memSize := by simpa using h
    simp [h, memWrites_eq s.mem hl, bind, Except.bind]

theorem exec_ldVxMem (x : RegIx) (s : State) :
    exec (.ldVxMem x) s = .next (if Config.memSize < indexBase s + (x.val + 1) then s.halt .memoryOutOfBounds
      else ((s.setRegs (fillRegs s.V 0 (s.mem.readList (indexBase s) (x.val + 1)))).postIncrement x).advance) := by
  simp only [exec, execLdVxMem, State.commit_checkRange]
  by_cases h : Config.memSize < indexBase s + (x.val + 1)
  · simp [h]
  · simp [h, memReads_eq s.mem (show indexBase s + (x.val + 1) ≤ Config.memSize by omega), bind, Except.bind]

/-! ### Display -/

theorem exec_cls (s : State) : exec .cls s = .next (s.setDisp clearDisplay).advance := rfl

theorem exec_drwVxVyN (x y : RegIx) (n : Height) (s : State) :
    exec (.drwVxVyN x y n) s
      = .next (if 0 < n.val ∧ Config.memSize < indexBase s + n.val then s.halt .memoryOutOfBounds
        else s.afterDraw x y (s.mem.readList (indexBase s) n.val)) := by
  simp only [exec, execDrwVxVyN, State.commit_checkRange]
  by_cases h : 0 < n.val ∧ Config.memSize < indexBase s + n.val
  · simp [h]
  · rw [if_neg h, if_neg h]
    by_cases h0 : n.val = 0
    · simp [h0, memReads, Memory.readList, bind, Except.bind]
    · simp [memReads_eq s.mem (show indexBase s + n.val ≤ Config.memSize by omega), bind, Except.bind]

/-! ### Keypad and timers -/

theorem exec_skpVx (x : RegIx) (s : State) :
    exec (.skpVx x) s = .next (s.skipIf (s.keyPressed (keyNumber s x))) := rfl

theorem exec_sknpVx (x : RegIx) (s : State) :
    exec (.sknpVx x) s = .next (s.skipIf (!s.keyPressed (keyNumber s x))) := rfl

theorem exec_ldVxDT (x : RegIx) (s : State) : exec (.ldVxDT x) s = .next (s.setReg x s.DT).advance := rfl

theorem exec_ldVxK (x : RegIx) (s : State) : exec (.ldVxK x) s = .next (s.setRun (.waitingForKey x)).advance := rfl

theorem exec_ldDTVx (x : RegIx) (s : State) : exec (.ldDTVx x) s = .next (s.setDT (s.reg x)).advance := rfl

theorem exec_ldSTVx (x : RegIx) (s : State) : exec (.ldSTVx x) s = .next (s.setST (s.reg x)).advance := rfl

end Sys2Proof.Machine
end

