-- ==== Sys2Proof/Laws/PerInstr.lean ====
section
/-! SUPPORT. The statements made per instruction. Family Encoding: the word the encoder gives an instruction is a word of that
instruction's OWN row of the opcode map (R100), so the encoder sets every fixed bit of the row and no operand reaches one. -/

namespace Sys2Proof.Laws.Encoding

open Sys2Proof

/-- The opcode map has a row with the instruction's mnemonic, and that row matches the instruction's word. -/
def Statement (i : Instr) : Prop := ∃ r ∈ opcodeTable, r.mnemonic = i.mnemonic ∧ r.hits (encode i) = true

/-- Family Encoding follows from the row that matches. -/
theorem of_row {i : Instr} (r : Row) (hr : r ∈ opcodeTable) (hm : r.mnemonic = i.mnemonic) (h : r.hits (encode i) = true) :
    Statement i := ⟨r, hr, hm, h⟩

theorem cls : Statement .cls :=
  of_row ⟨"CLS", 0xFFFF, 0x00E0⟩ (by decide) rfl (by decide)

theorem ret : Statement .ret :=
  of_row ⟨"RET", 0xFFFF, 0x00EE⟩ (by decide) rfl (by decide)

theorem jpAddr (nnn : Addr) : Statement (.jpAddr nnn) :=
  of_row ⟨"JP_addr", 0xF000, 0x1000⟩ (by decide) rfl (hits_formAddr (by omega) _ rfl _)

theorem callAddr (nnn : Addr) : Statement (.callAddr nnn) :=
  of_row ⟨"CALL_addr", 0xF000, 0x2000⟩ (by decide) rfl (hits_formAddr (by omega) _ rfl _)

theorem seVxByte (x : RegIx) (kk : Byte) : Statement (.seVxByte x kk) :=
  of_row ⟨"SE_Vx__byte", 0xF000, 0x3000⟩ (by decide) rfl (hits_formXkk (by omega) _ rfl _ _)

theorem sneVxByte (x : RegIx) (kk : Byte) : Statement (.sneVxByte x kk) :=
  of_row ⟨"SNE_Vx__byte", 0xF000, 0x4000⟩ (by decide) rfl (hits_formXkk (by omega) _ rfl _ _)

theorem seVxVy (x y : RegIx) : Statement (.seVxVy x y) :=
  of_row ⟨"SE_Vx__Vy", 0xF00F, 0x5000⟩ (by decide) rfl (hits_formXy (by omega) (by omega) _ rfl _ _)

theorem ldVxByte (x : RegIx) (kk : Byte) : Statement (.ldVxByte x kk) :=
  of_row ⟨"LD_Vx__byte", 0xF000, 0x6000⟩ (by decide) rfl (hits_formXkk (by omega) _ rfl _ _)

theorem addVxByte (x : RegIx) (kk : Byte) : Statement (.addVxByte x kk) :=
  of_row ⟨"ADD_Vx__byte", 0xF000, 0x7000⟩ (by decide) rfl (hits_formXkk (by omega) _ rfl _ _)

theorem ldVxVy (x y : RegIx) : Statement (.ldVxVy x y) :=
  of_row ⟨"LD_Vx__Vy", 0xF00F, 0x8000⟩ (by decide) rfl (hits_formXy (by omega) (by omega) _ rfl _ _)

theorem orVxVy (x y : RegIx) : Statement (.orVxVy x y) :=
  of_row ⟨"OR_Vx__Vy", 0xF00F, 0x8001⟩ (by decide) rfl (hits_formXy (by omega) (by omega) _ rfl _ _)

theorem andVxVy (x y : RegIx) : Statement (.andVxVy x y) :=
  of_row ⟨"AND_Vx__Vy", 0xF00F, 0x8002⟩ (by decide) rfl (hits_formXy (by omega) (by omega) _ rfl _ _)

theorem xorVxVy (x y : RegIx) : Statement (.xorVxVy x y) :=
  of_row ⟨"XOR_Vx__Vy", 0xF00F, 0x8003⟩ (by decide) rfl (hits_formXy (by omega) (by omega) _ rfl _ _)

theorem addVxVy (x y : RegIx) : Statement (.addVxVy x y) :=
  of_row ⟨"ADD_Vx__Vy", 0xF00F, 0x8004⟩ (by decide) rfl (hits_formXy (by omega) (by omega) _ rfl _ _)

theorem subVxVy (x y : RegIx) : Statement (.subVxVy x y) :=
  of_row ⟨"SUB_Vx__Vy", 0xF00F, 0x8005⟩ (by decide) rfl (hits_formXy (by omega) (by omega) _ rfl _ _)

theorem shrVxVy (x y : RegIx) : Statement (.shrVxVy x y) :=
  of_row ⟨"SHR_Vx____Vy", 0xF00F, 0x8006⟩ (by decide) rfl (hits_formXy (by omega) (by omega) _ rfl _ _)

theorem subnVxVy (x y : RegIx) : Statement (.subnVxVy x y) :=
  of_row ⟨"SUBN_Vx__Vy", 0xF00F, 0x8007⟩ (by decide) rfl (hits_formXy (by omega) (by omega) _ rfl _ _)

theorem shlVxVy (x y : RegIx) : Statement (.shlVxVy x y) :=
  of_row ⟨"SHL_Vx____Vy", 0xF00F, 0x800E⟩ (by decide) rfl (hits_formXy (by omega) (by omega) _ rfl _ _)

theorem sneVxVy (x y : RegIx) : Statement (.sneVxVy x y) :=
  of_row ⟨"SNE_Vx__Vy", 0xF00F, 0x9000⟩ (by decide) rfl (hits_formXy (by omega) (by omega) _ rfl _ _)

theorem ldIAddr (nnn : Addr) : Statement (.ldIAddr nnn) :=
  of_row ⟨"LD_I__addr", 0xF000, 0xA000⟩ (by decide) rfl (hits_formAddr (by omega) _ rfl _)

theorem jpV0Addr (nnn : Addr) : Statement (.jpV0Addr nnn) :=
  of_row ⟨"JP_V0__addr", 0xF000, 0xB000⟩ (by decide) rfl (hits_formAddr (by omega) _ rfl _)

theorem rndVxByte (x : RegIx) (kk : Byte) : Statement (.rndVxByte x kk) :=
  of_row ⟨"RND_Vx__byte", 0xF000, 0xC000⟩ (by decide) rfl (hits_formXkk (by omega) _ rfl _ _)

theorem drwVxVyN (x y : RegIx) (n : Height) : Statement (.drwVxVyN x y n) :=
  of_row ⟨"DRW_Vx__Vy__nibble", 0xF000, 0xD000⟩ (by decide) rfl (hits_formXyn (by omega) n.isLt _ rfl _ _)

theorem skpVx (x : RegIx) : Statement (.skpVx x) :=
  of_row ⟨"SKP_Vx", 0xF0FF, 0xE09E⟩ (by decide) rfl (hits_formX (by omega) (by omega) _ rfl _)

theorem sknpVx (x : RegIx) : Statement (.sknpVx x) :=
  of_row ⟨"SKNP_Vx", 0xF0FF, 0xE0A1⟩ (by decide) rfl (hits_formX (by omega) (by omega) _ rfl _)

theorem ldVxDT (x : RegIx) : Statement (.ldVxDT x) :=
  of_row ⟨"LD_Vx__DT", 0xF0FF, 0xF007⟩ (by decide) rfl (hits_formX (by omega) (by omega) _ rfl _)

theorem ldVxK (x : RegIx) : Statement (.ldVxK x) :=
  of_row ⟨"LD_Vx__K", 0xF0FF, 0xF00A⟩ (by decide) rfl (hits_formX (by omega) (by omega) _ rfl _)

theorem ldDTVx (x : RegIx) : Statement (.ldDTVx x) :=
  of_row ⟨"LD_DT__Vx", 0xF0FF, 0xF015⟩ (by decide) rfl (hits_formX (by omega) (by omega) _ rfl _)

theorem ldSTVx (x : RegIx) : Statement (.ldSTVx x) :=
  of_row ⟨"LD_ST__Vx", 0xF0FF, 0xF018⟩ (by decide) rfl (hits_formX (by omega) (by omega) _ rfl _)

theorem addIVx (x : RegIx) : Statement (.addIVx x) :=
  of_row ⟨"ADD_I__Vx", 0xF0FF, 0xF01E⟩ (by decide) rfl (hits_formX (by omega) (by omega) _ rfl _)

theorem ldFVx (x : RegIx) : Statement (.ldFVx x) :=
  of_row ⟨"LD_F__Vx", 0xF0FF, 0xF029⟩ (by decide) rfl (hits_formX (by omega) (by omega) _ rfl _)

theorem ldBVx (x : RegIx) : Statement (.ldBVx x) :=
  of_row ⟨"LD_B__Vx", 0xF0FF, 0xF033⟩ (by decide) rfl (hits_formX (by omega) (by omega) _ rfl _)

theorem ldMemVx (x : RegIx) : Statement (.ldMemVx x) :=
  of_row ⟨"LD__I___Vx", 0xF0FF, 0xF055⟩ (by decide) rfl (hits_formX (by omega) (by omega) _ rfl _)

theorem ldVxMem (x : RegIx) : Statement (.ldVxMem x) :=
  of_row ⟨"LD_Vx___I", 0xF0FF, 0xF065⟩ (by decide) rfl (hits_formX (by omega) (by omega) _ rfl _)

end Sys2Proof.Laws.Encoding
end

