-- ==== Sys2Proof/Laws/Step.lean ====
section
/-! SUPPORT. What a step can do, said once: the cases of the run state and, in `Running`, of the fetch. -/

namespace Sys2Proof.Machine

theorem step_waiting {s : State} {t : RegIx} (h : s.run = .waitingForKey t) : step s = .next s := by
  simp only [step, stepSelect, h, stepWaiting]

theorem step_halted {s : State} {r : HaltReason} (h : s.run = .halted r) : step s = .next s := by
  simp only [step, stepSelect, h, stepHalted]

/-- The cases of a step in `Running` (R129), whatever executes instructions: an illegal `pc`, an unknown word, or an
instruction that is executed. -/
theorem stepSelect_running (execute : Instr → State → Host.Outcome State Fault Refusal) {s : State} (h : s.run = .running) :
    (legalPc s.pc = false ∧ stepSelect execute s = .next (s.halt .memoryOutOfBounds)) ∨
    (legalPc s.pc = true ∧ decodeWord s.wordAtPc = none ∧ stepSelect execute s = .next (s.halt .unknownInstruction)) ∨
    (∃ i, legalPc s.pc = true ∧ decodeWord s.wordAtPc = some i ∧ stepSelect execute s = execute i s) := by
  simp only [stepSelect, h, stepRunning, State.fetchInstr_eq]
  cases hp : legalPc s.pc
  · exact .inl ⟨rfl, by simp⟩
  · cases hd : decodeWord s.wordAtPc
    · exact .inr (.inl ⟨rfl, rfl, by simp⟩)
    · exact .inr (.inr ⟨_, rfl, rfl, by simp⟩)

/-- The cases of a step in `Running`. -/
theorem step_running {s : State} (h : s.run = .running) :
    (legalPc s.pc = false ∧ step s = .next (s.halt .memoryOutOfBounds)) ∨
    (legalPc s.pc = true ∧ decodeWord s.wordAtPc = none ∧ step s = .next (s.halt .unknownInstruction)) ∨
    (∃ i, legalPc s.pc = true ∧ decodeWord s.wordAtPc = some i ∧ step s = exec i s) :=
  stepSelect_running exec h

/-- A step that answers a state answers it to the command too, with the return value that state tells (R129). -/
theorem stepCommand_of_step {s t : State} (h : step s = .next t) : stepCommand s = .next (t, t.stepReturn) := by
  simp only [stepCommand, h]

/-! ### The core's step with the random byte as an input -/

@[simp] theorem CoreState.withDraws_toCoreState (c : CoreState) (k : Nat) : (c.withDraws k).toCoreState = c := rfl

@[simp] theorem CoreState.withDraws_draws (c : CoreState) (k : Nat) : (c.withDraws k).draws = k := rfl

@[simp] theorem coreOutcome_next (t : State) : coreOutcome (.next t) = .next t.toCoreState := rfl

/-- The drawing instruction takes the input (R174). -/
theorem execWithDraw_rndVxByte (draw : Byte) (x : RegIx) (kk : Byte) (s : State) :
    execWithDraw draw (.rndVxByte x kk) s = .next (s.setReg x (draw &&& kk)).drawn.advance := rfl

/-- No other instruction looks at the input (R175). -/
theorem execWithDraw_of_ne {i : Instr} (h : ∀ x kk, i ≠ .rndVxByte x kk) (draw : Byte) (s : State) :
    execWithDraw draw i s = exec i s := by
  unfold execWithDraw
  split
  · exact absurd rfl (h _ _)
  · rfl

/-- `exec` is execution with the next byte of the environment's stream as the input (log entry 2). -/
theorem execWithDraw_randomByte (i : Instr) (s : State) : execWithDraw (Config.randomByte s.draws) i s = exec i s := by
  cases i <;> rfl

/-- Execution but for `Cxkk` keeps the place in the stream. -/
theorem exec_draws_of_ne {i : Instr} (h : ∀ x kk, i ≠ .rndVxByte x kk) {s t : State} (e : exec i s = .next t) :
    t.draws = s.draws := by
  cases i
  case rndVxByte x kk => exact absurd rfl (h x kk)
  all_goals first
    | (cases e; rfl)
    | (simp only [exec_ret, exec_callAddr, exec_orVxVy, exec_andVxVy, exec_xorVxVy, exec_addIVx, exec_ldVxMem, exec_ldMemVx,
        exec_ldBVx, exec_drwVxVyN] at e
       (try split at e) <;> cases e <;> first | rfl | simp)

/-- Execution but for `Cxkk` does to the core the same from every place in the stream. -/
theorem coreOutcome_exec_withDraws {i : Instr} (h : ∀ x kk, i ≠ .rndVxByte x kk) (s : State) (k : Nat) :
    coreOutcome (exec i (s.toCoreState.withDraws k)) = coreOutcome (exec i s) := by
  have ite : ∀ (P : Prop) [Decidable P] (a b a' b' : State), a.toCoreState = a'.toCoreState → b.toCoreState = b'.toCoreState →
      coreOutcome (.next (if P then a else b)) = coreOutcome (.next (if P then a' else b')) := by
    intro P _ a b a' b' h h'
    simp only [coreOutcome_next]
    split <;> simp only [*]
  obtain ⟨⟨V, I, pc, DT, ST, stack, disp, key, mem, run, ⟨logic, _, _, edge, incr, ovf⟩⟩, draws⟩ := s
  cases i
  case rndVxByte x kk => exact absurd rfl (h x kk)
  all_goals first
    | rfl
    | simp only [exec_ret, exec_callAddr, exec_orVxVy, exec_andVxVy, exec_xorVxVy, exec_addIVx, exec_ldVxMem, exec_ldMemVx,
        exec_ldBVx, exec_drwVxVyN]
  case orVxVy | andVxVy | xorVxVy => cases logic <;> rfl
  case addIVx => cases ovf <;> rfl
  case ldMemVx | ldVxMem => cases incr <;> exact ite _ _ _ _ _ rfl rfl
  case ldBVx | callAddr => exact ite _ _ _ _ _ rfl rfl
  case drwVxVyN => cases edge <;> exact ite _ _ _ _ _ rfl rfl
  case ret => cases hs : stack.getLast? <;> simp only [CoreState.withDraws, hs] <;> rfl

/-- What the core's step can do in `Running`: the cases of `step_running`, with the input handed to the instruction. -/
theorem stepWithDraw_running {c : CoreState} (h : c.run = .running) (draw : Byte) :
    (legalPc c.pc = false ∧ stepWithDraw draw c = .next { c with run := .halted .memoryOutOfBounds }) ∨
    (legalPc c.pc = true ∧ decodeWord (c.withDraws 0).wordAtPc = none ∧
      stepWithDraw draw c = .next { c with run := .halted .unknownInstruction }) ∨
    (∃ i, legalPc c.pc = true ∧ decodeWord (c.withDraws 0).wordAtPc = some i ∧
      stepWithDraw draw c = coreOutcome (execWithDraw draw i (c.withDraws 0))) := by
  rcases stepSelect_running (execWithDraw draw) (s := c.withDraws 0) h with ⟨hp, e⟩ | ⟨hp, hd, e⟩ | ⟨i, hp, hd, e⟩
  · exact .inl ⟨hp, congrArg coreOutcome e⟩
  · exact .inr (.inl ⟨hp, hd, congrArg coreOutcome e⟩)
  · exact .inr (.inr ⟨i, hp, hd, congrArg coreOutcome e⟩)

/-- The core's step outside `Running` changes nothing (R136, R137). -/
theorem stepWithDraw_not_running {c : CoreState} (h : c.run ≠ .running) (draw : Byte) : stepWithDraw draw c = .next c := by
  cases hr : c.run
  · exact absurd hr h
  all_goals
    simp only [stepWithDraw, stepSelect, CoreState.withDraws_toCoreState, hr, stepWaiting, stepHalted, coreOutcome_next]

end Sys2Proof.Machine
end

