-- ==== Sys2Proof/Tests/Slice0.lean ====
section
/-! SUPPORT. Tests of the model: words of every instruction written out bit by bit from the formats of R92 and the rows of R100,
ill-formed words and images refused, one step per instruction from the vectors of spec/95_test_vectors.md (each test names its
vector), and for every statement with hypotheses a state and operands that meet them. -/

namespace Sys2Proof.Tests

open Sys2Proof.Machine Sys2Proof.Claims

/-! ## Helpers -/

/-- Every quirk off, sprites wrap. -/
def quirksOff : Quirks := ⟨false, false, false, .wrap, false, false⟩

/-- Every quirk on, sprites clip. -/
def quirksOn : Quirks := ⟨true, true, true, .clip, true, true⟩

/-- A new core with the quirks off, and one with the quirks on. -/
def off : State := State.new quirksOff
def on : State := State.new quirksOn

/-- Words in memory from an address, high byte first, and `pc` at the first. -/
def at_ (s : State) (a : Word) (ws : List Word) : State :=
  (s.setPc a).setMem (s.mem.writeList a.toNat (ws.flatMap fun w => [hiByte w, loByte w]))

/-- Words at 0x200. -/
def prog (s : State) (ws : List Word) : State := at_ s 0x200 ws

/-- Data bytes in memory. -/
def data (s : State) (a : Nat) (bs : List Byte) : State := s.setMem (s.mem.writeList a bs)

/-- Pixels set. -/
def lit (s : State) (cs : List (Fin 64 × Fin 32)) : State := s.setDisp (cs.foldl (fun d c => flipPixel d c.1 c.2) s.disp)

/-- These pixels are set, and those are not. -/
def shows (s : State) (set clear : List (Fin 64 × Fin 32)) : Bool :=
  set.all (fun c => s.pixel c.1 c.2) && clear.all (fun c => !s.pixel c.1 c.2)

/-- The step leaves a state that the check accepts. -/
def stepsTo (s : State) (check : State → Bool) : Bool :=
  match step s with
  | .next t => check t
  | _ => false

/-- The commands return these values, and leave a state that the check accepts. -/
def commandsTo (cs : List Command) (s : State) (rs : List Return) (check : State → Bool) : Bool :=
  match commands cs s with
  | .next (t, qs) => qs == rs && check t
  | _ => false

/-! ## Decoding: every row, its word written out in binary -/

theorem test_decode_control :
    decodeWord 0b0000000011101110 = some .ret ∧
    decodeWord 0b0001001000110100 = some (.jpAddr 0x234) ∧
    decodeWord 0b0010001000010000 = some (.callAddr 0x210) ∧
    decodeWord 0b0011001100000101 = some (.seVxByte 3 0x05) ∧
    decodeWord 0b0100001100000101 = some (.sneVxByte 3 0x05) ∧
    decodeWord 0b0101000100100000 = some (.seVxVy 1 2) ∧
    decodeWord 0b1001000100100000 = some (.sneVxVy 1 2) ∧
    decodeWord 0b1011001100000000 = some (.jpV0Addr 0x300) := by decide

theorem test_decode_alu :
    decodeWord 0b0110101011111111 = some (.ldVxByte 10 0xFF) ∧
    decodeWord 0b0111001000100000 = some (.addVxByte 2 0x20) ∧
    decodeWord 0b1000000101010000 = some (.ldVxVy 1 5) ∧
    decodeWord 0b1000000100100001 = some (.orVxVy 1 2) ∧
    decodeWord 0b1000000100100010 = some (.andVxVy 1 2) ∧
    decodeWord 0b1000000100100011 = some (.xorVxVy 1 2) ∧
    decodeWord 0b1000000100100100 = some (.addVxVy 1 2) ∧
    decodeWord 0b1000000100100101 = some (.subVxVy 1 2) ∧
    decodeWord 0b1000000100100110 = some (.shrVxVy 1 2) ∧
    decodeWord 0b1000000100100111 = some (.subnVxVy 1 2) ∧
    decodeWord 0b1000000100101110 = some (.shlVxVy 1 2) ∧
    decodeWord 0b1100001100001111 = some (.rndVxByte 3 0x0F) := by decide

theorem test_decode_index_memory :
    decodeWord 0b1010001100000000 = some (.ldIAddr 0x300) ∧
    decodeWord 0b1111001000011110 = some (.addIVx 2) ∧
    decodeWord 0b1111010000101001 = some (.ldFVx 4) ∧
    decodeWord 0b1111000000110011 = some (.ldBVx 0) ∧
    decodeWord 0b1111001001010101 = some (.ldMemVx 2) ∧
    decodeWord 0b1111001001100101 = some (.ldVxMem 2) := by decide

theorem test_decode_display :
    decodeWord 0b0000000011100000 = some .cls ∧
    decodeWord 0b1101010101100101 = some (.drwVxVyN 5 6 5) := by decide

theorem test_decode_keys_timers :
    decodeWord 0b1110000110011110 = some (.skpVx 1) ∧
    decodeWord 0b1110000110100001 = some (.sknpVx 1) ∧
    decodeWord 0b1111010100000111 = some (.ldVxDT 5) ∧
    decodeWord 0b1111001100001010 = some (.ldVxK 3) ∧
    decodeWord 0b1111001000010101 = some (.ldDTVx 2) ∧
    decodeWord 0b1111001000011000 = some (.ldSTVx 2) := by decide

/-- The operands at both ends of their ranges. -/
theorem test_decode_operand_ends :
    decodeWord 0b0001111111111111 = some (.jpAddr 0xFFF) ∧
    decodeWord 0b0110111111111111 = some (.ldVxByte 15 0xFF) ∧
    decodeWord 0b1101111100001111 = some (.drwVxVyN 15 0 15) ∧
    decodeWord 0b1101000011110000 = some (.drwVxVyN 0 15 0) := by decide

/-- The encoder gives the words of the program listings P2 and P6 back. -/
theorem test_encode :
    encode (.callAddr 0x210) = 0x2210 ∧ encode (.drwVxVyN 5 6 5) = 0xD565 ∧ encode (.ldVxMem 2) = 0xF265 ∧
    encodeBytes (.ldIAddr 0x300) = [0xA3, 0x00] := by decide

/-- Bytes that are too few, or no instruction, are rejected by name; bytes after the instruction are given back. -/
theorem test_decode_bytes :
    decode [0x60] = .error .truncated ∧ decode [0x51, 0x21, 0x00] = .error (.unknownInstruction 0x5121) ∧
    decode [0x60, 0x05, 0x12] = .ok (.ldVxByte 0 0x05, [0x12]) := ⟨rfl, rfl, rfl⟩

/-! ## Ill-formed words and images (WellFormed.lean) -/

/-- One word of each class R102 lists, and others of group 0 (R104), match no row and are refused. -/
theorem smoke_words_refused :
    ([0x0000, 0x0123, 0x00E1, 0x00EF, 0x01E0, 0x5121, 0x512F, 0x8128, 0x812D, 0x812F, 0x9121, 0x912F,
      0xE19F, 0xE1A0, 0xE100, 0xF100, 0xF166, 0xF1FF, 0xFFFF] : List Word).all
        (fun w => isInstructionWord w == false && (decodeWord w).isNone) = true := by decide

/-- A word of each group that is one. -/
theorem smoke_words_accepted :
    ([0x00E0, 0x00EE, 0x1000, 0x5120, 0x812E, 0x9120, 0xE19E, 0xF165] : List Word).all
      (fun w => isInstructionWord w && (decodeWord w).isSome) = true := by decide

/-- 3584 bytes fit and 3585 do not (R281, R282). -/
theorem smoke_rom_size (b : Byte) :
    romFits (List.replicate 3584 b) = true ∧ romFits (List.replicate 3585 b) = false ∧ romFits [] = true := by
  refine ⟨?_, ?_, rfl⟩ <;> rw [romFits, List.length_replicate] <;> rfl

/-! ## One step -/

/-- V-CF1. -/
theorem test_ret : stepsTo ((at_ off 0x212 [0x00EE]).setStack [0x206]) (fun t => t.pc == 0x206 && t.stack == []) = true := by decide

/-- V-CF2. -/
theorem test_ret_underflow :
    stepsTo (prog off [0x00EE]) (fun t => t.pc == 0x200 && t.run == .halted .stackUnderflow) = true := by decide

/-- V-CF3. -/
theorem test_jp : stepsTo (prog off [0x1234]) (fun t => t.pc == 0x234) = true := by decide

/-- V-CF8: the last address. -/
theorem test_call : stepsTo (at_ off 0xFFE [0x2300]) (fun t => t.pc == 0x300 && t.stack == [0x1000]) = true := by decide

/-- V-CF7. -/
theorem test_call_overflow :
    stepsTo ((at_ off 0x204 [0x2210]).setStack (List.replicate 16 0x300))
      (fun t => t.pc == 0x204 && t.stack.length == 16 && t.run == .halted .stackOverflow) = true := by decide

/-- V-CF9 and V-CF10. -/
theorem test_se_byte :
    stepsTo ((at_ off 0x206 [0x3305]).setReg 3 0x05) (fun t => t.pc == 0x20A) = true ∧
    stepsTo ((at_ off 0x206 [0x3305]).setReg 3 0x06) (fun t => t.pc == 0x208) = true := by decide

/-- V-CF11 and V-CF12. -/
theorem test_sne_byte :
    stepsTo ((at_ off 0x206 [0x4305]).setReg 3 0x05) (fun t => t.pc == 0x208) = true ∧
    stepsTo ((at_ off 0x206 [0x4305]).setReg 3 0x06) (fun t => t.pc == 0x20A) = true := by decide

/-- V-CF14 and V-CF15. -/
theorem test_se_reg :
    stepsTo (((at_ off 0x300 [0x5120]).setReg 1 0x7F).setReg 2 0x7F) (fun t => t.pc == 0x304) = true ∧
    stepsTo (((at_ off 0x300 [0x5120]).setReg 1 0x7F).setReg 2 0x80) (fun t => t.pc == 0x302) = true := by decide

/-- V-CF18 and V-CF19. -/
theorem test_sne_reg :
    stepsTo (((at_ off 0x300 [0x9120]).setReg 1 0x7F).setReg 2 0x80) (fun t => t.pc == 0x304) = true ∧
    stepsTo (at_ off 0x300 [0x9110]) (fun t => t.pc == 0x302) = true := by decide

/-- V-CF21 and V-CF22. -/
theorem test_jp_offset :
    stepsTo (((prog off [0xB300]).setReg 0 0x04).setReg 3 0x10) (fun t => t.pc == 0x304) = true ∧
    stepsTo (((prog on [0xB300]).setReg 0 0x04).setReg 3 0x10) (fun t => t.pc == 0x310) = true := by decide

/-- V-CF23: the sum is not reduced. -/
theorem test_jp_offset_top : stepsTo ((prog off [0xBFFF]).setReg 0 0xFF) (fun t => t.pc == 0x10FE) = true := by decide

/-- V-AL1. -/
theorem test_ld_byte : stepsTo (prog off [0x6AFF]) (fun t => t.pc == 0x202 && t.reg 10 == 0xFF) = true := by decide

/-- V-AL4: the sum wraps and VF keeps its value. -/
theorem test_add_byte_wraps :
    stepsTo (((prog off [0x7201]).setReg 2 0xFF).setReg VF 0x05) (fun t => t.reg 2 == 0x00 && t.reg VF == 0x05) = true := by decide

/-- V-AL6: VF is kept under the quirk. -/
theorem test_ld_reg :
    stepsTo (((prog on [0x8150]).setReg 5 0x3C).setReg VF 0x01) (fun t => t.reg 1 == 0x3C && t.reg VF == 0x01) = true := by decide

/-- V-AL7 and V-AL8. -/
theorem test_or :
    stepsTo ((((prog off [0x8121]).setReg 1 0x0F).setReg 2 0xF0).setReg VF 0x55) (fun t => t.reg 1 == 0xFF && t.reg VF == 0x55) = true ∧
    stepsTo ((((prog on [0x8121]).setReg 1 0x0F).setReg 2 0xF0).setReg VF 0x55) (fun t => t.reg 1 == 0xFF && t.reg VF == 0) = true := by
  decide

/-- V-AL9 and V-AL10: VF is the destination. -/
theorem test_or_into_vf :
    stepsTo (((prog on [0x8F21]).setReg VF 0x0F).setReg 2 0xF0) (fun t => t.reg VF == 0x00) = true ∧
    stepsTo (((prog off [0x8F21]).setReg VF 0x0F).setReg 2 0xF0) (fun t => t.reg VF == 0xFF) = true := by decide

/-- V-AL12. -/
theorem test_and :
    stepsTo ((((prog on [0x8122]).setReg 1 0x3C).setReg 2 0x0F).setReg VF 0x01) (fun t => t.reg 1 == 0x0C && t.reg VF == 0) = true := by
  decide

/-- V-AL13. -/
theorem test_xor :
    stepsTo (((prog off [0x8123]).setReg 1 0x3C).setReg 2 0x0F) (fun t => t.reg 1 == 0x33 && t.pc == 0x202) = true := by decide

/-- V-AL16. -/
theorem test_add :
    stepsTo (((prog off [0x8124]).setReg 1 0xFF).setReg 2 0x01) (fun t => t.reg 1 == 0x00 && t.reg VF == 1) = true := by decide

/-- V-AL19 and V-AL20: VF is the destination, and the source. -/
theorem test_add_vf :
    stepsTo (((prog off [0x8F14]).setReg VF 0x10).setReg 1 0xF5) (fun t => t.reg VF == 1) = true ∧
    stepsTo (((prog off [0x81F4]).setReg 1 0x01).setReg VF 0xFF) (fun t => t.reg 1 == 0x00 && t.reg VF == 1) = true := by decide

/-- V-AL22 and V-AL24: a borrow, and equal operands. -/
theorem test_sub :
    stepsTo (((prog off [0x8125]).setReg 1 0x05).setReg 2 0x07) (fun t => t.reg 1 == 0xFE && t.reg VF == 0) = true ∧
    stepsTo (((prog off [0x8125]).setReg 1 0x05).setReg 2 0x05) (fun t => t.reg 1 == 0x00 && t.reg VF == 1) = true := by decide

/-- V-AL26: VF is the destination. -/
theorem test_sub_vf : stepsTo (((prog off [0x8F15]).setReg VF 0x03).setReg 1 0x05) (fun t => t.reg VF == 0) = true := by decide

/-- V-AL27 and V-AL28. -/
theorem test_shr :
    stepsTo (((prog off [0x8126]).setReg 1 0x05).setReg 2 0x0C) (fun t => t.reg 1 == 0x02 && t.reg VF == 1) = true ∧
    stepsTo (((prog on [0x8126]).setReg 1 0x05).setReg 2 0x0C) (fun t => t.reg 1 == 0x06 && t.reg VF == 0) = true := by decide

/-- V-AL31 and V-AL32. -/
theorem test_subn :
    stepsTo (((prog off [0x8127]).setReg 1 0x05).setReg 2 0x07) (fun t => t.reg 1 == 0x02 && t.reg VF == 1) = true ∧
    stepsTo (((prog off [0x8127]).setReg 1 0x07).setReg 2 0x05) (fun t => t.reg 1 == 0xFE && t.reg VF == 0) = true := by decide

/-- V-AL34 and V-AL35. -/
theorem test_shl :
    stepsTo (((prog off [0x812E]).setReg 1 0x81).setReg 2 0x40) (fun t => t.reg 1 == 0x02 && t.reg VF == 1) = true ∧
    stepsTo (((prog on [0x812E]).setReg 1 0x81).setReg 2 0x40) (fun t => t.reg 1 == 0x80 && t.reg VF == 0) = true := by decide

/-- V-AL39: the drawn byte is 0xA7. -/
theorem test_rnd_with_draw :
    (match stepWithDraw 0xA7 (prog off [0xC30F]).toCoreState with
      | .next c => c.V[3] == 0x07 && c.pc == 0x202
      | _ => false) = true := by decide

/-- V-AL40: with mask 0 the result does not depend on the draw. -/
theorem test_rnd_mask_zero (draw : Byte) : (rndWithDraw draw 3 0x00 (off.setReg 3 0x11)).reg 3 = 0x00 := by
  show draw &&& 0#8 = 0#8
  simp

/-- V-IM2. -/
theorem test_ld_index : stepsTo (prog off [0xAFFF]) (fun t => t.I == 0xFFF && t.pc == 0x202) = true := by decide

/-- V-IM4 and V-IM3: VF is written under the quirk alone. -/
theorem test_add_index :
    stepsTo ((((prog on [0xF21E]).setI 0xFF8).setReg 2 0x10).setReg VF 0x07) (fun t => t.I == 0x008 && t.reg VF == 1) = true ∧
    stepsTo ((((prog off [0xF21E]).setI 0xFF8).setReg 2 0x10).setReg VF 0x07) (fun t => t.I == 0x008 && t.reg VF == 7) = true := by
  decide

/-- V-IM7: VF is the addend and the flag. -/
theorem test_add_index_vf :
    stepsTo (((prog on [0xFF1E]).setI 0xFF0).setReg VF 0x10) (fun t => t.I == 0x000 && t.reg VF == 1) = true := by decide

/-- V-IM9 and V-IM10. -/
theorem test_glyph :
    stepsTo ((prog off [0xF429]).setReg 4 0x07) (fun t => t.I == 0x023) = true ∧
    stepsTo ((prog off [0xF429]).setReg 4 0x1A) (fun t => t.I == 0x032) = true := by decide

/-- V-IM12. -/
theorem test_bcd :
    stepsTo (((prog off [0xF033]).setReg 0 0xFE).setI 0x300)
      (fun t => t.mem.readList 0x300 3 == [0x02, 0x05, 0x04] && t.I == 0x300) = true := by decide

/-- V-IM15 and V-IM16: the end of memory. -/
theorem test_bcd_end :
    stepsTo (((prog off [0xF033]).setReg 0 0x2A).setI 0xFFD) (fun t => t.mem.readList 0xFFD 3 == [0x00, 0x04, 0x02]) = true ∧
    stepsTo (((prog off [0xF033]).setReg 0 0x2A).setI 0xFFE)
      (fun t => t.byteAt 0xFFF == 0 && t.pc == 0x200 && t.run == .halted .memoryOutOfBounds) = true := by decide

/-- V-IM17 and V-IM18. -/
theorem test_store :
    stepsTo (((((prog off [0xF255]).setReg 0 1).setReg 1 2).setReg 2 3).setI 0x400)
      (fun t => t.mem.readList 0x400 4 == [1, 2, 3, 0] && t.I == 0x400) = true ∧
    stepsTo (((((prog on [0xF255]).setReg 0 1).setReg 1 2).setReg 2 3).setI 0x400)
      (fun t => t.mem.readList 0x400 4 == [1, 2, 3, 0] && t.I == 0x403) = true := by decide

/-- V-IM19 and V-IM20: the end of memory. -/
theorem test_store_end :
    stepsTo ((((prog on [0xF155]).setReg 0 0xAA).setReg 1 0xBB).setI 0xFFE)
      (fun t => t.mem.readList 0xFFE 2 == [0xAA, 0xBB] && t.I == 0x1000) = true ∧
    stepsTo ((((prog on [0xF155]).setReg 0 0xAA).setReg 1 0xBB).setI 0xFFF)
      (fun t => t.byteAt 0xFFF == 0 && t.I == 0xFFF && t.run == .halted .memoryOutOfBounds) = true := by decide

/-- V-IM23. -/
theorem test_load :
    stepsTo ((data (prog on [0xF265]) 0x300 [2, 5, 4, 9]).setI 0x300)
      (fun t => t.reg 0 == 2 && t.reg 1 == 5 && t.reg 2 == 4 && t.reg 3 == 0 && t.I == 0x303) = true := by decide

/-- V-IM25. -/
theorem test_load_out_of_bounds :
    stepsTo ((prog off [0xF065]).setI 0x1000) (fun t => t.pc == 0x200 && t.run == .halted .memoryOutOfBounds) = true := by decide

/-- V-DI1. -/
theorem test_cls :
    stepsTo ((lit (prog off [0x00E0]) [(0, 0), (63, 31)]).setReg VF 1)
      (fun t => shows t [] [(0, 0), (63, 31)] && t.reg VF == 1 && t.pc == 0x202) = true := by decide

/-- V-DI6 and V-DI7: the right edge, wrapped and clipped. -/
theorem test_draw_edge :
    stepsTo (((data (prog off [0xD011]) 0x300 [0xFF]).setI 0x300).setReg 0 60)
      (fun t => shows t [(60, 0), (63, 0), (0, 0), (3, 0)] [(59, 0), (4, 0), (0, 1)] && t.reg VF == 0) = true ∧
    stepsTo (((data (prog on [0xD011]) 0x300 [0xFF]).setI 0x300).setReg 0 60)
      (fun t => shows t [(60, 0), (63, 0)] [(59, 0), (0, 0), (3, 0)] && t.reg VF == 0) = true := by decide

/-- V-DI13 and V-DI12: a collision, and a sprite that leaves memory. -/
theorem test_draw_collision_and_halt :
    stepsTo (lit ((data (prog off [0xD011]) 0x300 [0x10]).setI 0x300) [(3, 0)])
      (fun t => shows t [] [(2, 0), (3, 0), (4, 0)] && t.reg VF == 1) = true ∧
    stepsTo (lit ((prog off [0xD012]).setI 0xFFF) [(0, 0)])
      (fun t => shows t [(0, 0)] [(1, 0)] && t.pc == 0x200 && t.run == .halted .memoryOutOfBounds) = true := by decide

/-- V-TI1 and V-TI2. -/
theorem test_skp :
    stepsTo (((at_ off 0x220 [0xE19E]).setReg 1 0x05).setKeyState 5 true) (fun t => t.pc == 0x224) = true ∧
    stepsTo ((at_ off 0x220 [0xE19E]).setReg 1 0x05) (fun t => t.pc == 0x222) = true := by decide

/-- V-TI5: the low nibble names the key. -/
theorem test_skp_low_nibble :
    stepsTo (((at_ off 0x220 [0xE19E]).setReg 1 0x15).setKeyState 5 true) (fun t => t.pc == 0x224) = true := by decide

/-- V-TI3 and V-TI4. -/
theorem test_sknp :
    stepsTo (((at_ off 0x220 [0xE1A1]).setReg 1 0x05).setKeyState 5 true) (fun t => t.pc == 0x222) = true ∧
    stepsTo ((at_ off 0x220 [0xE1A1]).setReg 1 0x05) (fun t => t.pc == 0x224) = true := by decide

/-- V-TI7. -/
theorem test_ld_reg_dt : stepsTo ((prog off [0xF507]).setDT 60) (fun t => t.reg 5 == 0x3C && t.DT == 60) = true := by decide

/-- V-TI10: the wait, with `pc` past the instruction. -/
theorem test_ld_key : stepsTo (prog off [0xF30A]) (fun t => t.pc == 0x202 && t.run == .waitingForKey 3) = true := by decide

/-- V-TI8. -/
theorem test_ld_dt : stepsTo ((prog off [0xF215]).setReg 2 0x3C) (fun t => t.DT == 60 && t.ST == 0) = true := by decide

/-- V-TI9. -/
theorem test_ld_st : stepsTo ((prog off [0xF218]).setReg 2 0x05) (fun t => t.ST == 5 && t.DT == 0 && t.soundActive) = true := by decide

/-- V-CY1: from reset with nothing loaded, the word at 0x200 is 0x0000 (log entry 3). The quirks are open. -/
theorem test_step_of_reset : step State.reset = .next (State.reset.halt .unknownInstruction) := rfl

/-- V-CY5: a jump below 0x200 is a fault of the next step. -/
theorem test_illegal_pc : stepsTo (at_ off 0x1FE [0x00E0]) (fun t => t.pc == 0x1FE && t.run == .halted .memoryOutOfBounds) = true := by
  decide

/-! ## Commands -/

/-- V-CY2, W1. -/
theorem test_load_then_step :
    commandsTo [.load [0x60, 0x05], .step] on [.ok, .ok] (fun t => t.pc == 0x202 && t.reg 0 == 5 && t.mem == [(0x200, 0x60), (0x201, 0x05)])
      = true := by decide

/-- V-CY6: a halted core fails every step, and its timers tick. -/
theorem test_halted_steps :
    commandsTo [.step, .step, .tickTimers] ((prog off [0x00EE]).setDT 3) [.fail .stackUnderflow, .fail .stackUnderflow, .ok]
      (fun t => t.DT == 2 && t.run == .halted .stackUnderflow) = true := by decide

/-- V-CY7. -/
theorem test_run_cycles :
    commandsTo [.runCycles 5] (prog off [0x6001, 0x6102, 0xFFFF, 0x6303]) [.fail .unknownInstruction]
      (fun t => t.pc == 0x204 && t.reg 1 == 2 && t.reg 3 == 0) = true := by decide

/-- V-CY11: `load` ends a wait. -/
theorem test_load_ends_wait :
    commandsTo [.load [0x12, 0x00]] (((prog off [0xF30A]).setReg 3 9).setRun (.waitingForKey 3)) [.ok]
      (fun t => t.run == .running && t.reg 3 == 0 && t.pc == 0x200) = true := by decide

/-- V-TI12 and V-TI13: a held key does not end the wait until it is pressed again. -/
theorem test_press_edge :
    commandsTo [.step, .setKey 7 true] ((prog off [0xF30A]).setKeyState 7 true) [.ok, .ok] (fun t => t.run == .waitingForKey 3) = true ∧
    commandsTo [.step, .setKey 7 false, .setKey 7 true] ((prog off [0xF30A]).setKeyState 7 true) [.ok, .ok, .ok]
      (fun t => t.run == .running && t.reg 3 == 7 && t.pc == 0x202) = true := by decide

/-- V-TI16. -/
theorem test_tick : (tickTimers ((off.setDT 2).setST 0)).DT = 1 ∧ (tickTimers ((off.setDT 2).setST 0)).ST = 0 := by decide

/-- The names the host uses agree with the decoder and the step (rows 1 and 28 of the table). -/
theorem test_host_names :
    decodeTableWord 16 0xF30A = some (.ldVxK 3) ∧
    stepsTo (off.withFetchWord 16 0xF30A) (fun t => t.run == .waitingForKey 3 && t.pc == 0x202) = true := by decide

/-! ## Witnesses: for every statement with hypotheses, states and operands that meet them, at the ends of each clause -/

/-- The two ends of the addresses an instruction is fetched from, and the addresses next to them. -/
theorem witness_IllegalPc :
    ¬ IllegalPc 0x200 ∧ ¬ IllegalPc 0xFFE ∧ IllegalPc 0x1FE ∧ IllegalPc 0x201 ∧ IllegalPc 0xFFF ∧ IllegalPc 0x1000 := by decide

/-- The largest ROM that fits, the empty one, and addresses of every range. -/
theorem witness_LoadInstallsRom :
    (0x200 + (List.replicate 3584 (0xAA : Byte)).length ≤ 0x1000 ∧ 0x200 + ([] : List Byte).length ≤ 0x1000) ∧
    ((load [0xAA] off).1.byteAt 79 = 0x80 ∧ (load [0xAA] off).1.byteAt 80 = 0 ∧ (load [0xAA] off).1.byteAt 0x1FF = 0 ∧
      (load [0xAA] off).1.byteAt 0x200 = 0xAA ∧ (load [0xAA] off).1.byteAt 0x201 = 0) := by
  refine ⟨⟨?_, by decide⟩, by decide⟩
  rw [List.length_replicate]

/-- One byte too many (V-CY9). -/
theorem witness_OversizedLoadHalts : 0x1000 < 0x200 + (List.replicate 3585 (0xAA : Byte)).length := by
  rw [List.length_replicate]
  decide

/-- An instruction at each end of the fetch range. -/
theorem witness_StepRunsDecodedInstruction :
    ((prog off [0x6AFF]).run = .running ∧ ¬ IllegalPc (prog off [0x6AFF]).pc ∧
      decode [(prog off [0x6AFF]).byteAt 0x200, (prog off [0x6AFF]).byteAt 0x201] = .ok (.ldVxByte 10 0xFF, [])) ∧
    (¬ IllegalPc (at_ off 0xFFE [0x2300]).pc ∧
      decode [(at_ off 0xFFE [0x2300]).byteAt 0xFFE, (at_ off 0xFFE [0x2300]).byteAt 0xFFF] = .ok (.callAddr 0x300, [])) :=
  ⟨⟨rfl, by decide, rfl⟩, by decide, rfl⟩

theorem witness_StepOutsideRunning :
    (off.setRun (.waitingForKey 3)).run = .waitingForKey 3 ∧ (off.halt .romTooLarge).run = .halted .romTooLarge := ⟨rfl, rfl⟩

theorem witness_IllegalPcHaltsAtFetch :
    (off.setPc 0x201).run = .running ∧ IllegalPc (off.setPc 0x201).pc ∧ IllegalPc (off.setPc 0x1FE).pc ∧
      IllegalPc (off.setPc 0x1000).pc := by decide

/-- V-CF17. -/
theorem witness_UnknownWordHalts :
    (at_ off 0x300 [0x5121]).run = .running ∧ ¬ IllegalPc (at_ off 0x300 [0x5121]).pc ∧
      isInstructionWord ((at_ off 0x300 [0x5121]).byteAt 0x300 ++ (at_ off 0x300 [0x5121]).byteAt 0x301) = false :=
  ⟨rfl, by decide, by decide⟩

theorem witness_FetchIsBigEndian :
    ¬ IllegalPc 0x200 ∧ ¬ IllegalPc 0xFFE ∧ fetch [(0x200, 0x12), (0x201, 0x34)] 0x200 = .ok 0x1234 :=
  ⟨witness_IllegalPc.1, witness_IllegalPc.2.1, rfl⟩

theorem witness_OpcodeMapIsDecoded : decodeWord 0x8124 = some (.addVxVy 1 2) ∧ isInstructionWord 0x8124 = true := by decide

theorem witness_EncodeOfDecode : decodeWord 0xD011 = some (.drwVxVyN 0 1 1) ∧ encode (.drwVxVyN 0 1 1) = 0xD011 := by decide

/-- Both clauses (V-CF1, V-CF2), and a popped address the next step faults on. -/
theorem witness_ReturnPopsOrUnderflows :
    off.stack = [] ∧ (off.setStack [0x206]).stack = [] ++ [0x206] ∧
      (off.setStack [0x202, 0x206]).stack = [0x202] ++ [0x206] ∧
      (off.run = .running ∧ IllegalPc ((off.setStack [0x1000]).setPc 0x1000).pc) :=
  ⟨rfl, rfl, rfl, rfl, by decide⟩

/-- Both clauses at the ends of the stack's lengths (V-CF6, V-CF7). -/
theorem witness_CallPushesOrOverflows :
    off.stack.length < 16 ∧ (off.setStack (List.replicate 15 0x300)).stack.length < 16 ∧
      (off.setStack (List.replicate 16 0x300)).stack.length = 16 := by decide

theorem witness_CallThenReturnResumes :
    (off.setPc 0x204).stack.length < 16 ∧ exec (.callAddr 0x210) (off.setPc 0x204) = .next ((off.setStack [0x206]).setPc 0x210) ∧
      (((off.setStack [0x206]).setPc 0x300).setDT 9).stack = ((off.setStack [0x206]).setPc 0x210).stack := ⟨by decide, rfl, rfl⟩

/-- V-CF4: the target is checked by the next step. -/
theorem witness_JumpSetsPc : off.run = .running ∧ IllegalPc (off.setPc 0x201).pc := ⟨rfl, by decide⟩

/-- The register under each quirk (V-CF21, V-CF22). -/
theorem witness_OffsetJumpAddsRegister : OffsetRegister off 0x300 0 ∧ OffsetRegister on 0x300 3 ∧ OffsetRegister on 0xFFF 15 := by
  refine ⟨rfl, rfl, rfl⟩

/-- Each skip taken and not taken. -/
theorem witness_RegisterSkips :
    (off.setReg 3 0x05).reg 3 = 0x05 ∧ (off.setReg 3 0x06).reg 3 ≠ 0x05 ∧
      (off.setReg 1 0x7F).reg 1 ≠ (off.setReg 1 0x7F).reg 2 ∧ off.reg 1 = off.reg 2 := by decide

/-- V-TI5: V1 is 0x15, the key is 5, pressed and not. -/
theorem witness_KeySkips :
    (5 : KeyIx).val = ((off.setReg 1 0x15).reg 1).toNat % 16 ∧ (off.setKeyState 5 true).keyPressed 5 = true ∧ off.keyPressed 5 = false := by
  decide

/-- Each operation, under each setting of the quirk, with VF as the destination and not. -/
theorem witness_LogicOperations :
    ((Instr.orVxVy 1 2 = .orVxVy 1 2 ∧ or = or) ∧ (Instr.andVxVy 1 2 = .andVxVy 1 2 ∧ and = and) ∧
      (Instr.xorVxVy 15 2 = .xorVxVy 15 2 ∧ xor = xor)) ∧
    on.quirks.vfResetOnLogicOps = true ∧ off.quirks.vfResetOnLogicOps = false ∧ (1 : RegIx) ≠ VF ∧ (15 : RegIx) = VF := by
  simp [on, off, State.new, quirksOn, quirksOff, VF]

/-- The sums 255 and 256. -/
theorem witness_AddWithCarry :
    ((off.setReg 1 0xFF).reg 1).toNat + ((off.setReg 1 0xFF).reg 2).toNat = 255 ∧
      255 < (((off.setReg 1 0xFF).setReg 2 1).reg 1).toNat + (((off.setReg 1 0xFF).setReg 2 1).reg 2).toNat ∧ (1 : RegIx) ≠ VF := by
  decide

/-- Equal operands and a borrow, for each form. -/
theorem witness_Subtractions :
    (Instr.subVxVy 1 2 = .subVxVy 1 2 ∧ 5 = ((off.setReg 1 5).reg 1).toNat ∧ 0 = ((off.setReg 1 5).reg 2).toNat) ∧
    (Instr.subnVxVy 1 2 = .subnVxVy 1 2 ∧ 0 = ((off.setReg 1 5).reg 2).toNat ∧ 5 = ((off.setReg 1 5).reg 1).toNat) ∧
    (Instr.subVxVy 1 2 = .subVxVy 1 2 ∧ 0 = (off.reg 1).toNat ∧ 0 = (off.reg 2).toNat) := by decide

/-- The sums 0xFFF and 0x1000, under each setting of the quirk. -/
theorem witness_AddToIndex :
    (on.setI 0xFFF).quirks.indexOverflowSetsVf = true ∧ ((on.setI 0xFFF).setReg 1 1).quirks.indexOverflowSetsVf = true ∧
      off.quirks.indexOverflowSetsVf = false ∧
      (on.setI 0xFFF).I.toNat + ((on.setI 0xFFF).reg 1).toNat = 0xFFF ∧
      ((on.setI 0xFFF).setReg 1 1).I.toNat + (((on.setI 0xFFF).setReg 1 1).reg 1).toNat = 0x1000 := by decide

/-- The last address that fits and the first that does not (V-IM15, V-IM16). -/
theorem witness_BcdStore :
    (off.setI 0xFFD).mem.wf ∧ indexBase (off.setI 0xFFD) + 2 < 0x1000 ∧ 0x1000 ≤ indexBase (off.setI 0xFFE) + 2 := by decide

/-- The last address that fits and the first that does not (V-IM19, V-IM20), under each setting of the quirk. -/
theorem witness_RegisterStore :
    (off.setI 0xFFE).mem.wf ∧ indexBase (off.setI 0xFFE) + (1 : RegIx).val < 0x1000 ∧
      0x1000 ≤ indexBase (off.setI 0xFFF) + (1 : RegIx).val ∧
      (on.setI 0xFFE).mem.wf ∧ indexBase (on.setI 0xFFE) + (1 : RegIx).val < 0x1000 ∧
      (on.setI 0xFFE).quirks.indexIncrementOnDumpLoad = true ∧ (off.setI 0xFFE).quirks.indexIncrementOnDumpLoad = false := by decide

/-- V-IM25, V-IM26: all 16 registers up to the last address, and one register past it. -/
theorem witness_RegisterLoad :
    indexBase (off.setI 0xFF0) + (15 : RegIx).val < 0x1000 ∧ 0x1000 ≤ indexBase (off.setI 0x1000) + (0 : RegIx).val ∧
      0x1000 ≤ indexBase (off.setI 0xFF1) + (15 : RegIx).val ∧ (15 : RegIx) ≤ 15 ∧ (14 : RegIx) < 15 ∧
      indexBase (on.setI 0xFF0) + (14 : RegIx).val < 0x1000 ∧ (on.setI 0xFF0).quirks.indexIncrementOnDumpLoad = true ∧
      (off.setI 0xFF0).quirks.indexIncrementOnDumpLoad = false := by decide

theorem witness_StoreLoadRoundTrip :
    (off.setI 0x300).mem.wf ∧ indexBase (off.setI 0x300) + (15 : RegIx).val < 0x1000 ∧ indexBase (off.setI 0xFF0) + (15 : RegIx).val < 0x1000 := by
  decide

/-- Program P7: the word 0x6142, stored at 0x20A. -/
theorem witness_StoredWordIsFetched :
    (((off.setReg 0 0x61).setReg 1 0x42).setI 0x20A).mem.wf ∧ 1 ≤ (1 : RegIx).val ∧
      indexBase (((off.setReg 0 0x61).setReg 1 0x42).setI 0x20A) + (1 : RegIx).val < 0x1000 ∧
      ¬ IllegalPc (((off.setReg 0 0x61).setReg 1 0x42).setI 0x20A).I ∧
      decode [((off.setReg 0 0x61).setReg 1 0x42).reg 0, ((off.setReg 0 0x61).setReg 1 0x42).reg 1] = .ok (.ldVxByte 1 0x42, []) :=
  ⟨by decide, by decide, by decide, by decide, rfl⟩

/-- The last address and the first outside, in a memory that lists a byte. -/
theorem witness_ByteAccess :
    Memory.wf [(0x300, 0x77)] ∧ memRead [(0xFFF, 0x77)] 0xFFF = .ok 0x77 ∧ memRead [] 0x1000 = .error .memoryOutOfBounds :=
  ⟨by decide, rfl, rfl⟩

/-- No row at all, the last address that fits, and the first that does not; and a pixel that is drawn under each edge policy. -/
theorem witness_DrawSprite :
    ((0 : Height).val = 0 ∧ indexBase (off.setI 0xFFF) + (1 : Height).val - 1 < 0x1000) ∧
    (0 < (2 : Height).val ∧ 0x1000 ≤ indexBase (off.setI 0xFFF) + (2 : Height).val - 1) ∧
    Drawn ((data off 0x300 [0xFF]).setI 0x300) 0 1 1 7 0 ∧ ¬ Drawn ((data off 0x300 [0xFF]).setI 0x300) 0 1 1 8 0 ∧
    Drawn (((data on 0x300 [0xFF]).setI 0x300).setReg 0 60) 0 1 1 63 0 := by
  refine ⟨by decide, by decide, ⟨0, 7, by decide, by decide, by decide, rfl, rfl⟩, ?_,
    ⟨0, 3, by decide, by decide, by decide, rfl, rfl⟩⟩
  rintro ⟨r, c, hr, hc, -, h, -⟩
  have : c = 8 := by
    simp only [State.reg, data, off, State.new, State.setMem, State.setI] at h
    simp at h
    omega
  omega

/-- The two collision clauses: a drawn pixel that was set, and a clear display, where none was. -/
theorem witness_DrawSprite_collision :
    (Drawn (lit ((data off 0x300 [0xFF]).setI 0x300) [(7, 0)]) 0 1 1 7 0 ∧
      (lit ((data off 0x300 [0xFF]).setI 0x300) [(7, 0)]).pixel 7 0 = true) ∧
    ∀ u v, ((data off 0x300 [0xFF]).setI 0x300).pixel u v = false := by
  refine ⟨⟨⟨0, 7, by decide, by decide, by decide, rfl, rfl⟩, by decide⟩, fun u v => ?_⟩
  simp [State.pixel, pixelOf, data, off, State.new, State.setMem, State.setI]

theorem witness_DrawTwiceRestores :
    (0 : RegIx) ≠ VF ∧ (1 : RegIx) ≠ VF ∧ indexBase (off.setI 0xFFF) + (1 : Height).val - 1 < 0x1000 ∧ (0 : Height).val = 0 := by decide

/-- A press edge while waiting, a held key, a release, and a press while running. -/
theorem witness_KeyInput :
    (off.setRun (.waitingForKey 3)).run = .waitingForKey 3 ∧ (off.setRun (.waitingForKey 3)).keyPressed 7 = false ∧
      (off.setKeyState 7 true).keyPressed 7 = true ∧
      ∀ x, off.run ≠ .waitingForKey x := ⟨rfl, by decide, by decide, fun _ h => by cases h⟩

theorem witness_WaitEndsOnPressEdge : off.keyPressed 7 = false ∧ off.keyPressed 15 = false := by decide

/-- Timers at 0, at 1 and at 255. -/
theorem witness_TimerTick :
    off.DT = 0 ∧ (off.setDT 1).DT ≠ 0 ∧ (off.setDT 255).DT ≠ 0 ∧ off.ST = 0 ∧ (off.setST 1).ST ≠ 0 := by decide

/-- An instruction that writes none of these kinds of state, and one outside every list but its own. -/
theorem witness_OnlyWritersChangeState :
    exec (.jpAddr 0x234) off = .next (off.setPc 0x234) ∧ writesStack (.jpAddr 0x234) = false ∧ writesDisplay (.jpAddr 0x234) = false ∧
      writesMemory (.jpAddr 0x234) = false ∧ writesIndex quirksOn (.jpAddr 0x234) = false ∧ writesIndex quirksOff (.ldMemVx 1) = false ∧
      (∀ x, Instr.jpAddr 0x234 ≠ .ldDTVx x) ∧ ∀ x, Instr.jpAddr 0x234 ≠ .ldSTVx x := by
  refine ⟨rfl, rfl, rfl, rfl, rfl, rfl, ?_, ?_⟩ <;> intro x h <;> cases h

theorem witness_OnlyListedInstructionsWriteRegisters :
    exec (.ldVxByte 3 0x05) off = .next (off.setReg 3 0x05).advance ∧ writesReg quirksOff 4 (.ldVxByte 3 0x05) = false ∧
      writesReg quirksOff VF (.orVxVy 1 2) = false ∧ writesReg quirksOn VF (.orVxVy 1 2) = true ∧
      writesReg quirksOff 3 (.ldVxMem 2) = false := ⟨rfl, by decide, by decide, by decide, by decide⟩

/-- Each cause of R251: a state that has it. -/
theorem witness_HaltCauses :
    StepHaltCause (off.setPc 0x201) .memoryOutOfBounds ∧ StepHaltCause off .unknownInstruction ∧
    StepHaltCause (prog off [0x00EE]) .stackUnderflow ∧
    StepHaltCause ((prog off [0x2210]).setStack (List.replicate 16 0x300)) .stackOverflow ∧
    StepHaltCause ((prog off [0xD012]).setI 0xFFF) .memoryOutOfBounds ∧
    StepHaltCause ((prog off [0xF033]).setI 0xFFE) .memoryOutOfBounds ∧
    StepHaltCause ((prog off [0xF155]).setI 0xFFF) .memoryOutOfBounds ∧
    StepHaltCause ((prog off [0xF065]).setI 0x1000) .memoryOutOfBounds := by
  have legal : ¬ IllegalPc 0x200 := witness_IllegalPc.1
  exact ⟨.illegalPc (by decide), .unknownWord legal (by decide), .emptyStack legal (by decide) rfl,
    .fullStack 0x210 legal (by decide) (by decide), .draw 0 1 2 legal (by decide) (by decide) (by decide),
    .bcd 0 legal (by decide) (by decide), .store 1 legal (by decide) (by decide), .load 0 legal (by decide) (by decide)⟩

/-- The other clauses: a running core that steps, a load that halts and one that does not, and the commands that never halt. -/
theorem witness_HaltCauses_commands :
    ((prog off [0x2210]).setStack (List.replicate 16 0x300)).stack.length ≤ 16 ∧
    off.run = .running ∧ (off.setRun (.waitingForKey 3)).run ≠ .running ∧
    command (.runCycles 2) off = .next (off.halt .unknownInstruction, .fail .unknownInstruction) ∧
    step (off.setPc 0x201) = .next ((off.setPc 0x201).halt .memoryOutOfBounds) ∧
    command (.load []) off = .next (off, .ok) ∧ command .tickTimers off = .next (off, .ok) ∧
    command (.setKey 1 false) off = .next (setKey 1 false off, .ok) ∧ command (.read .index) off = .next (off, .value (.word 0)) :=
  ⟨by decide, rfl, by decide, rfl, rfl, rfl, rfl, rfl, rfl⟩

theorem witness_HaltIsPrecise :
    command .step off = .next (off.halt .unknownInstruction, .fail .unknownInstruction) ∧
      (off.halt .unknownInstruction).run = .halted .unknownInstruction := ⟨rfl, rfl⟩

theorem witness_HaltedUntilLoad :
    (off.halt .stackOverflow).run = .halted .stackOverflow ∧
      ∀ c ∈ [Command.step, .tickTimers, .setKey 3 true, .runCycles 5, .read .callStack], ∀ rom, c ≠ .load rom := by
  refine ⟨rfl, fun c hc rom h => ?_⟩
  subst h
  simp at hc

theorem witness_RunCyclesComposes :
    command (.runCycles 1) (prog off [0x1200]) = .next (prog off [0x1200], .ok) ∧
      command (.runCycles 1) off = .next (off.halt .unknownInstruction, .fail .unknownInstruction) := ⟨rfl, rfl⟩

theorem witness_QuirksAreImmutable :
    commands [.tickTimers, .step] off = .next (off.halt .unknownInstruction, [.ok, .fail .unknownInstruction]) := rfl

/-- A new core has the invariant, and so has one at the ends of its bounds that waits for a key. -/
theorem witness_Inv :
    Inv off ∧ Inv ((((off.setStack [0x202, 0x1000]).setI 0x1000).setPc 0x1000).setRun (.waitingForKey 3)) := by
  refine ⟨⟨by decide, by decide, by decide, by decide, ?_, ?_⟩, ⟨by decide, by decide, by decide, by decide, ?_, ?_⟩⟩
  · exact fun a h => nomatch h
  · exact fun t h => nomatch h
  · intro a h
    have h' : a ∈ [(0x202 : Word), 0x1000] := h
    rcases List.mem_pair.mp h' with rfl | rfl <;> exact ⟨by decide, by decide, by decide⟩
  · exact fun t h => ⟨by decide, by decide, by decide⟩

theorem witness_StepKeepsInv : Inv off ∧ step off = .next (off.halt .unknownInstruction) := ⟨witness_Inv.1, rfl⟩

theorem witness_CommandKeepsInv : Inv off ∧ command .tickTimers off = .next (off, .ok) := ⟨witness_Inv.1, rfl⟩

theorem witness_PlacedWordRuns : off.mem.wf ∧ decodeWord 0x6005 = some (.ldVxByte 0 0x05) := by decide

/-- A core that executes `Cxkk` next, one that executes another instruction, and one that executes none. -/
theorem witness_RandomByteIsAnInput :
    ExecutesRandom (prog off [0xC30F]).toCoreState 3 0x0F ∧ (∀ x kk, ¬ ExecutesRandom (prog off [0x6AFF]).toCoreState x kk) ∧
    (∀ x kk, ¬ ExecutesRandom ((prog off [0xC30F]).halt .romTooLarge).toCoreState x kk) ∧
    step off = .next (off.halt .unknownInstruction) := by
  refine ⟨⟨rfl, by decide, by decide⟩, fun x kk h => ?_, ?_, rfl⟩
  · have other : decode [(prog off [0x6AFF]).mem.read 0x200, (prog off [0x6AFF]).mem.read 0x201]
        = .ok (.ldVxByte 10 0xFF, []) := by decide
    cases other.symm.trans h.2.2
  · rintro x kk ⟨h, -⟩
    cases h

end Sys2Proof.Tests
end

section
/-! SUPPORT. Every instruction, step and command answers a next state. The inversions of `stepReturn` and of one more cycle of
`run_cycles` stand first. -/

namespace Sys2Proof.Machine

/-! ### What a step returns, and one more cycle -/

/-- A step returns `Ok` or `Fail`, and never a value (R129). -/
theorem State.stepReturn_cases (t : State) : t.stepReturn = .ok ∨ ∃ r, t.stepReturn = .fail r := by
  unfold State.stepReturn
  split
  · exact .inr ⟨_, rfl⟩
  · exact .inl rfl

/-- A cycle that succeeds is followed by the cycles that are left (R124). -/
theorem runCycles_succ_of_ok {s t : State} (h : step s = .next t) (hr : t.stepReturn = .ok) (n : Nat) :
    runCycles (n + 1) s = runCycles n t := by
  simp only [runCycles, h, hr]

/-- A cycle that fails is the last one (R124). -/
theorem runCycles_succ_of_fail {s t : State} {r : HaltReason} (h : step s = .next t) (hr : t.stepReturn = .fail r) (n : Nat) :
    runCycles (n + 1) s = .next (t, .fail r) := by
  simp only [runCycles, h, hr]

/-! ### Totality -/

/-- The six instructions that can halt answer the halted state or their result; the others only their result (R103, R253). -/
theorem exec_answers (i : Instr) (s : State) : ∃ t, exec i s = .next t := by
  cases i
  case ret => exact ⟨_, exec_ret s⟩
  case callAddr nnn => exact ⟨_, exec_callAddr nnn s⟩
  case drwVxVyN x y n => exact ⟨_, exec_drwVxVyN x y n s⟩
  case ldBVx x => exact ⟨_, exec_ldBVx x s⟩
  case ldMemVx x => exact ⟨_, exec_ldMemVx x s⟩
  case ldVxMem x => exact ⟨_, exec_ldVxMem x s⟩
  all_goals exact ⟨_, rfl⟩

theorem step_answers (s : State) : ∃ t, step s = .next t := by
  cases h : s.run with
  | running =>
    obtain ⟨-, e⟩ | ⟨-, -, e⟩ | ⟨i, -, -, e⟩ := step_running h
    · exact ⟨_, e⟩
    · exact ⟨_, e⟩
    · rw [e]
      exact exec_answers i s
  | waitingForKey x => exact ⟨s, step_waiting h⟩
  | halted r => exact ⟨s, step_halted h⟩

theorem runCycles_answers (n : Nat) (s : State) : ∃ t r, runCycles n s = .next (t, r) := by
  induction n generalizing s with
  | zero => exact ⟨s, .ok, rfl⟩
  | succ n ih =>
    obtain ⟨t, h⟩ := step_answers s
    obtain hr | ⟨r, hr⟩ := t.stepReturn_cases
    · rw [runCycles_succ_of_ok h hr]
      exact ih t
    · exact ⟨t, .fail r, runCycles_succ_of_fail h hr n⟩

theorem command_answers (c : Command) (s : State) : ∃ t r, command c s = .next (t, r) := by
  cases c with
  | step =>
    obtain ⟨t, h⟩ := step_answers s
    exact ⟨t, t.stepReturn, stepCommand_of_step h⟩
  | runCycles n => exact runCycles_answers n s
  | load rom => exact ⟨(load rom s).1, (load rom s).2, rfl⟩
  | tickTimers => exact ⟨tickTimers s, .ok, rfl⟩
  | setKey k p => exact ⟨setKey k p s, .ok, rfl⟩
  | read q => exact ⟨s, .value (s.observe q), rfl⟩

end Sys2Proof.Machine

namespace Sys2Proof.Claims

open Sys2Proof.Machine

/-- Settles O53: every arm of `exec` ends in a next state, and `step` and the commands hand such a state on. -/
theorem everyCommandAnswers : Obligations.EveryCommandAnswers :=
  ⟨exec_answers, step_answers, command_answers⟩

end Sys2Proof.Claims
end

section
/-! SUPPORT. What executing one instruction can do to the state, said once; every rule about which parts an instruction changes and
which bounds it keeps is a case split over it. -/

namespace Sys2Proof.Machine

open Sys2Proof.Claims

/-! ### The updates under a quirk, as plain updates -/

theorem State.setLogicResult_eq_setRegs (s : State) (x : RegIx) (v : Byte) :
    s.setLogicResult x v = s.setRegs (s.setLogicResult x v).V := by
  unfold State.setLogicResult
  split <;> rfl

theorem State.setIndexFlag_eq_setRegs (s : State) (sum : Nat) : s.setIndexFlag sum = s.setRegs (s.setIndexFlag sum).V := by
  unfold State.setIndexFlag
  split <;> rfl

/-! ### The bounds of the values written to `pc` and `I` -/

theorem toNat_addrWord (nnn : Addr) : (addrWord nnn).toNat = nnn.toNat := by
  have := nnn.isLt
  simp only [addrWord, BitVec.truncate_eq_setWidth, BitVec.toNat_setWidth]
  omega

theorem toNat_addrWord_le (nnn : Addr) : (addrWord nnn).toNat ≤ 0xFFF := by
  rw [toNat_addrWord]
  exact Nat.le_of_lt_succ nnn.isLt

/-- The target of `Bnnn` is the full sum, which 16 bits hold (R148, decision D16). -/
theorem toNat_addrWord_add_zeroExtend (nnn : Addr) (v : Byte) :
    (addrWord nnn + v.zeroExtend 16).toNat = nnn.toNat + v.toNat := by
  have := nnn.isLt
  have := v.isLt
  simp only [BitVec.toNat_add, toNat_addrWord, BitVec.truncate_eq_setWidth, BitVec.toNat_setWidth]
  omega

theorem toNat_glyphAddress_le (s : State) (x : RegIx) : (glyphAddress s x).toNat ≤ 75 := by
  have := (lowNibble (s.reg x)).isLt
  calc (glyphAddress s x).toNat ≤ Config.fontBase + 5 * (lowNibble (s.reg x)).val := Nat.mod_le ..
    _ ≤ 75 := by
      simp only [Config.fontBase]
      omega

/-- `I + V[x]` wrapped at the end of memory stays below it (decision D14). -/
theorem toNat_wrappedIndexSum_lt (n : Nat) : (BitVec.ofNat 16 (n % Config.memSize)).toNat < Config.memSize := by
  simp only [Config.memSize, BitVec.toNat_ofNat]
  omega

/-! ### The inversion of `exec` -/

/-- `Effect s i t`: executing `i` may take `s` to `t`. Each constructor is one shape an execution has; what it leaves open (the
registers, the pixels) it holds in a variable, and what bounds or keeps the rest it holds as a premise. -/
inductive Effect (s : State) : Instr → State → Prop where
  /-- A halt discards every write (R134, R253). -/
  | halt {i : Instr} (r : HaltReason) : Effect s i (s.halt r)
  /-- `1nnn` and `Bnnn`: the largest target is 0xFFF + 0xFF (R25). -/
  | jump {i : Instr} {a : Word} (h : a.toNat ≤ 0x10FE) : Effect s i (s.setPc a)
  /-- The six skips (R149, R230, R231). -/
  | skip {i : Instr} (taken : Bool) : Effect s i (s.skipIf taken)
  /-- `00EE` (R141). -/
  | ret {rest : List Word} {top : Word} (h : s.stack = rest ++ [top]) : Effect s .ret ((s.setStack rest).setPc top)
  /-- `2nnn` (R143). -/
  | call {nnn : Addr} (h : s.stack.length < Config.stackDepth) :
      Effect s (.callAddr nnn) ((s.setStack (s.stack ++ [s.pc + 2])).setPc (addrWord nnn))
  /-- The instructions that write general registers alone. -/
  | regs {i : Instr} (V : Vector Byte 16) : Effect s i (s.setRegs V).advance
  /-- `Cxkk` (R174). -/
  | random {x : RegIx} {kk : Byte} (V : Vector Byte 16) : Effect s (.rndVxByte x kk) (s.setRegs V).drawn.advance
  /-- `Annn`, `Fx1E` and `Fx29`, of which `Fx1E` may write VF besides (R191, R192, R194). -/
  | index {i : Instr} (hw : ∀ q, writesIndex q i = true) {a : Word} (ha : a.toNat ≤ 0x1000) (V : Vector Byte 16) :
      Effect s i ((s.setI a).setRegs V).advance
  /-- `Fx65` (R197). -/
  | load {x : RegIx} (V : Vector Byte 16) (h : indexBase s + (x.val + 1) ≤ Config.memSize) :
      Effect s (.ldVxMem x) ((s.setRegs V).postIncrement x).advance
  /-- `Fx55` (R196). -/
  | store {x : RegIx} {m : Memory} (hm : s.mem.wf → m.wf) (h : indexBase s + (x.val + 1) ≤ Config.memSize) :
      Effect s (.ldMemVx x) ((s.setMem m).postIncrement x).advance
  /-- `Fx33` (R195). -/
  | bcd {x : RegIx} {m : Memory} (hm : s.mem.wf → m.wf) : Effect s (.ldBVx x) (s.setMem m).advance
  /-- `00E0` and `Dxyn` (R211, R212). -/
  | display {i : Instr} (hw : writesDisplay i = true) (d : Display) (V : Vector Byte 16) :
      Effect s i ((s.setDisp d).setRegs V).advance
  /-- `Fx15` (R235). -/
  | delay {x : RegIx} (v : Byte) : Effect s (.ldDTVx x) (s.setDT v).advance
  /-- `Fx18` (R236). -/
  | sound {x : RegIx} (v : Byte) : Effect s (.ldSTVx x) (s.setST v).advance
  /-- `Fx0A` (R234). -/
  | wait {x : RegIx} : Effect s (.ldVxK x) (s.setRun (.waitingForKey x)).advance

/-- A logic operation writes registers alone, under either setting of its quirk (R167). -/
theorem Effect.logic {s : State} {i : Instr} (x : RegIx) (v : Byte) : Effect s i (s.setLogicResult x v).advance := by
  rw [State.setLogicResult_eq_setRegs]
  exact .regs _

theorem effect_jpV0Addr (nnn : Addr) (s : State) :
    Effect s (.jpV0Addr nnn) (s.setPc (addrWord nnn + (jumpOffset s nnn).zeroExtend 16)) := by
  have := nnn.isLt
  have := (jumpOffset s nnn).isLt
  refine .jump ?_
  rw [toNat_addrWord_add_zeroExtend]
  omega

theorem effect_ret {s t : State} (e : exec .ret s = .next t) : Effect s .ret t := by
  rw [exec_ret] at e
  obtain h | ⟨rest, top, h⟩ := s.stack.eq_nil_or_concat'
  · simp only [h, List.getLast?_nil] at e
    cases e
    exact .halt _
  · simp only [h, List.getLast?_concat, List.dropLast_concat] at e
    cases e
    exact .ret h

theorem effect_callAddr {s t : State} {nnn : Addr} (e : exec (.callAddr nnn) s = .next t) : Effect s (.callAddr nnn) t := by
  rw [exec_callAddr] at e
  split at e <;> cases e
  · exact .halt _
  · exact .call (by omega)

theorem effect_addIVx (x : RegIx) (s : State) :
    Effect s (.addIVx x) ((s.setI (BitVec.ofNat 16 (indexSum s x % Config.memSize))).setIndexFlag (indexSum s x)).advance := by
  rw [State.setIndexFlag_eq_setRegs]
  exact .index (fun _ => rfl) (Nat.le_of_lt (toNat_wrappedIndexSum_lt _)) _

theorem effect_ldBVx {s t : State} {x : RegIx} (e : exec (.ldBVx x) s = .next t) : Effect s (.ldBVx x) t := by
  rw [exec_ldBVx] at e
  split at e <;> cases e
  next => exact .halt _
  next h => exact .bcd fun hm => Memory.wf_writeList hm (Nat.le_of_not_lt h)

theorem effect_ldMemVx {s t : State} {x : RegIx} (e : exec (.ldMemVx x) s = .next t) : Effect s (.ldMemVx x) t := by
  rw [exec_ldMemVx] at e
  split at e <;> cases e
  next => exact .halt _
  next h =>
    have h : indexBase s + (x.val + 1) ≤ Config.memSize := Nat.le_of_not_lt h
    exact .store (fun hm => Memory.wf_writeList hm (by rwa [State.length_regsUpTo])) h

theorem effect_ldVxMem {s t : State} {x : RegIx} (e : exec (.ldVxMem x) s = .next t) : Effect s (.ldVxMem x) t := by
  rw [exec_ldVxMem] at e
  split at e <;> cases e
  next => exact .halt _
  next h => exact .load _ (Nat.le_of_not_lt h)

theorem effect_drwVxVyN {s t : State} {x y : RegIx} {n : Height} (e : exec (.drwVxVyN x y n) s = .next t) :
    Effect s (.drwVxVyN x y n) t := by
  rw [exec_drwVxVyN] at e
  split at e <;> cases e
  · exact .halt _
  · exact .display rfl _ _

/-- Every execution has one of the shapes (R134). -/
theorem exec_effect {i : Instr} {s t : State} (e : exec i s = .next t) : Effect s i t := by
  cases i
  case ret => exact effect_ret e
  case callAddr => exact effect_callAddr e
  case ldBVx => exact effect_ldBVx e
  case ldMemVx => exact effect_ldMemVx e
  case ldVxMem => exact effect_ldVxMem e
  case drwVxVyN => exact effect_drwVxVyN e
  all_goals cases e
  case jpAddr nnn => exact .jump (Nat.le_trans (toNat_addrWord_le nnn) (by decide))
  case jpV0Addr nnn => exact effect_jpV0Addr nnn s
  case seVxByte | sneVxByte | seVxVy | sneVxVy | skpVx | sknpVx => exact .skip _
  case orVxVy | andVxVy | xorVxVy => exact .logic _ _
  case ldIAddr nnn => exact .index (fun _ => rfl) (Nat.le_trans (toNat_addrWord_le nnn) (by decide)) s.V
  case ldFVx x => exact .index (fun _ => rfl) (Nat.le_trans (toNat_glyphAddress_le s x) (by decide)) s.V
  case addIVx x => exact effect_addIVx x s
  case rndVxByte => exact .random _
  case cls => exact .display (i := .cls) rfl clearDisplay s.V
  case ldDTVx => exact .delay _
  case ldSTVx => exact .sound _
  case ldVxK => exact .wait
  case ldVxByte | addVxByte | ldVxVy | addVxVy | subVxVy | shrVxVy | subnVxVy | shlVxVy | ldVxDT => exact .regs _

end Sys2Proof.Machine
end

section
/-! SUPPORT. The inductions over a run, packaged once: what every step keeps, every command keeps, given that the load, the tick and
the key input keep it; and what every command keeps, every sequence of commands keeps. The inversions of these commands stand
first. -/

namespace Sys2Proof.Machine

/-! ### Inversions -/

/-- What a step can do (R129): nothing, a halt at the fetch, or the effect of an instruction at a legal address. -/
theorem step_effect {s t : State} (e : step s = .next t) :
    t = s ∨ (∃ r, t = s.halt r) ∨
      ∃ i, s.run = .running ∧ legalPc s.pc = true ∧ decodeWord s.wordAtPc = some i ∧ Effect s i t := by
  cases h : s.run with
  | running =>
    obtain ⟨-, e'⟩ | ⟨-, -, e'⟩ | ⟨i, hp, hd, e'⟩ := step_running h
    · exact .inr (.inl ⟨_, Host.Outcome.next.inj (e.symm.trans e')⟩)
    · exact .inr (.inl ⟨_, Host.Outcome.next.inj (e.symm.trans e')⟩)
    · exact .inr (.inr ⟨i, rfl, hp, hd, exec_effect (e'.symm.trans e)⟩)
  | waitingForKey x => exact .inl (Host.Outcome.next.inj (e.symm.trans (step_waiting h)))
  | halted r => exact .inl (Host.Outcome.next.inj (e.symm.trans (step_halted h)))

/-- A load installs a ROM that fits and halts at one that does not (R281, R282). -/
theorem load_cases (rom : List Byte) (s : State) :
    0x200 + rom.length ≤ 0x1000 ∧ load rom s = (s.installRom rom, .ok) ∨
    0x1000 < 0x200 + rom.length ∧ load rom s = (s.halt .romTooLarge, .fail .romTooLarge) := by
  unfold load
  split <;> rename_i h <;> rw [romFits_iff] at h
  · exact .inl ⟨h, rfl⟩
  · exact .inr ⟨Nat.lt_of_not_le h, rfl⟩

/-- A key input records the key, and wakes a waiting core on a press edge (R262, R263). -/
theorem setKey_cases (k : KeyIx) (p : Bool) (s : State) :
    setKey k p s = s.setKeyState k p ∨
    ∃ x, s.run = .waitingForKey x ∧ setKey k p s = ((s.setKeyState k p).setReg x (keyByte k)).setRun .running := by
  unfold setKey State.wake
  split
  · split
    next x h => exact .inr ⟨x, h, rfl⟩
    next => exact .inl rfl
  · exact .inl rfl

/-! ### Inductions -/

theorem runCycles_keeps {P : State → Prop} (hstep : ∀ s t, P s → step s = .next t → P t) {n : Nat} {s t : State} {r : Return}
    (hs : P s) (e : runCycles n s = .next (t, r)) : P t := by
  induction n generalizing s with
  | zero =>
    cases e
    exact hs
  | succ n ih =>
    obtain ⟨u, hu⟩ := step_answers s
    obtain hr | ⟨r', hr⟩ := u.stepReturn_cases
    · exact ih (hstep s u hs hu) (runCycles_succ_of_ok hu hr n ▸ e)
    · cases (runCycles_succ_of_fail hu hr n).symm.trans e
      exact hstep s t hs hu

theorem command_keeps {P : State → Prop} (hload : ∀ rom s, P s → P (load rom s).1)
    (hstep : ∀ s t, P s → step s = .next t → P t) (htick : ∀ s, P s → P (tickTimers s))
    (hkey : ∀ k p s, P s → P (setKey k p s)) {c : Command} {s t : State} {r : Return} (hs : P s)
    (e : command c s = .next (t, r)) : P t := by
  cases c with
  | step =>
    obtain ⟨u, hu⟩ := step_answers s
    cases (stepCommand_of_step hu).symm.trans e
    exact hstep s t hs hu
  | runCycles n => exact runCycles_keeps hstep hs e
  | load rom =>
    obtain rfl : (load rom s).1 = t := congrArg Prod.fst (Host.Outcome.next.inj e)
    exact hload rom s hs
  | tickTimers =>
    cases e
    exact htick s hs
  | setKey k p =>
    cases e
    exact hkey k p s hs
  | read q =>
    cases e
    exact hs

theorem commands_keep {P : State → Prop} (hc : ∀ c s t r, P s → command c s = .next (t, r) → P t) {cs : List Command}
    {s t : State} {rs : List Return} (hs : P s) (e : commands cs s = .next (t, rs)) : P t := by
  induction cs generalizing s rs with
  | nil =>
    cases e
    exact hs
  | cons c cs ih =>
    obtain ⟨u, r, hu⟩ := command_answers c s
    simp only [commands, hu] at e
    split at e
    next v rs' hv =>
      cases e
      exact ih (hc c s u r hs hu) hv
    all_goals cases e

end Sys2Proof.Machine
end

section
/-! SUPPORT. The invariant is kept: by each update within its bounds, so by each effect of an instruction, each step and each
command. -/

namespace Sys2Proof.Machine

/-- The address after a legal fetch address is one a call can push (R141, R143). -/
theorem returnAddress_add_two {a : Word} (h : legalPc a = true) : returnAddress (a + 2) := by
  obtain ⟨heven, hlow, hhigh⟩ := (legalPc_iff a).mp h
  have hsum : (a + 2).toNat = a.toNat + 2 := by
    rw [BitVec.toNat_add]
    exact Nat.mod_eq_of_lt (by simp; omega)
  exact ⟨by omega, by omega, by omega⟩

namespace Inv

variable {s t : State}

/-! ### The updates -/

/-- The invariant looks at memory, `I`, `pc`, the stack and the run state alone. -/
theorem congr (hi : Inv s) (hm : t.mem = s.mem) (hI : t.I = s.I) (hp : t.pc = s.pc) (hs : t.stack = s.stack)
    (hr : t.run = s.run) : Inv t where
  memory := hm ▸ hi.memory
  index := hI ▸ hi.index
  pc := hp ▸ hi.pc
  depth := hs ▸ hi.depth
  entries := hs ▸ hi.entries
  waiting x hx := hp ▸ hi.waiting x (hr ▸ hx)

theorem setReg (hi : Inv s) (x : RegIx) (v : Byte) : Inv (s.setReg x v) := hi.congr rfl rfl rfl rfl rfl

theorem setRegs (hi : Inv s) (V : Vector Byte 16) : Inv (s.setRegs V) := hi.congr rfl rfl rfl rfl rfl

theorem drawn (hi : Inv s) : Inv s.drawn := hi.congr rfl rfl rfl rfl rfl

theorem setDisp (hi : Inv s) (d : Display) : Inv (s.setDisp d) := hi.congr rfl rfl rfl rfl rfl

theorem setDT (hi : Inv s) (v : Byte) : Inv (s.setDT v) := hi.congr rfl rfl rfl rfl rfl

theorem setST (hi : Inv s) (v : Byte) : Inv (s.setST v) := hi.congr rfl rfl rfl rfl rfl

theorem setKeyState (hi : Inv s) (k : KeyIx) (p : Bool) : Inv (s.setKeyState k p) := hi.congr rfl rfl rfl rfl rfl

theorem setMem (hi : Inv s) {m : Memory} (hm : s.mem.wf → m.wf) : Inv (s.setMem m) :=
  ⟨hm hi.memory, hi.index, hi.pc, hi.depth, hi.entries, hi.waiting⟩

theorem setI (hi : Inv s) {a : Word} (ha : a.toNat ≤ 0x1000) : Inv (s.setI a) :=
  ⟨hi.memory, ha, hi.pc, hi.depth, hi.entries, hi.waiting⟩

/-- A core that runs may go to any address an instruction can produce (R25). -/
theorem setPc (hi : Inv s) (hr : s.run = .running) {a : Word} (ha : a.toNat ≤ 0x10FE) : Inv (s.setPc a) :=
  ⟨hi.memory, hi.index, ha, hi.depth, hi.entries, fun x hx => by cases hr.symm.trans hx⟩

theorem setStack (hi : Inv s) {st : List Word} (hd : st.length ≤ Config.stackDepth) (he : ∀ a ∈ st, returnAddress a) :
    Inv (s.setStack st) :=
  ⟨hi.memory, hi.index, hi.pc, hd, he, hi.waiting⟩

/-- Any run state but a wait may be entered anywhere. -/
theorem setRun (hi : Inv s) {r : RunState} (hr : ∀ x, r ≠ .waitingForKey x) : Inv (s.setRun r) :=
  ⟨hi.memory, hi.index, hi.pc, hi.depth, hi.entries, fun x hx => absurd hx (hr x)⟩

theorem halt (hi : Inv s) (r : HaltReason) : Inv (s.halt r) := hi.setRun fun _ h => nomatch h

theorem advance (hi : Inv s) (hp : legalPc s.pc = true) : Inv s.advance :=
  have ret : returnAddress s.advance.pc := returnAddress_add_two hp
  ⟨hi.memory, hi.index, Nat.le_trans ret.2.2 (by decide), hi.depth, hi.entries, fun _ _ => ret⟩

/-- The increment of `I` stays within 0x1000, because the access it follows stayed within memory (decision D15). -/
theorem postIncrement (hi : Inv s) {x : RegIx} (h : indexBase s + (x.val + 1) ≤ Config.memSize) : Inv (s.postIncrement x) := by
  unfold State.postIncrement
  split
  · refine hi.setI (Nat.le_trans (Nat.mod_le ..) ?_)
    rw [BitVec.toNat_ofNat]
    exact Nat.le_trans (Nat.add_le_add_left (Nat.mod_le ..) _) h
  · exact hi

theorem skipIf (hi : Inv s) (hr : s.run = .running) (hp : legalPc s.pc = true) (taken : Bool) : Inv (s.skipIf taken) := by
  obtain ⟨-, -, hhigh⟩ := (legalPc_iff s.pc).mp hp
  refine hi.setPc hr ?_
  cases taken <;> simp [BitVec.toNat_add] <;> omega

/-! ### Every effect, step and command -/

theorem effect (hi : Inv s) (hr : s.run = .running) (hp : legalPc s.pc = true) {i : Instr} (e : Effect s i t) : Inv t := by
  cases e with
  | halt r => exact hi.halt r
  | jump ha => exact hi.setPc hr ha
  | skip taken => exact hi.skipIf hr hp taken
  | @ret rest top h =>
    have hd := hi.depth
    have he := hi.entries
    rw [h] at hd he
    have htop : returnAddress top := he top (by simp)
    refine (hi.setStack (st := rest) ?_ ?_).setPc hr (Nat.le_trans htop.2.2 (by decide))
    · exact Nat.le_trans (by simp) hd
    · exact fun a ha => he a (List.mem_append_left _ ha)
  | call hlen =>
    refine (hi.setStack (st := s.stack ++ [s.pc + 2]) ?_ ?_).setPc hr (Nat.le_trans (toNat_addrWord_le _) (by decide))
    · simpa using hlen
    · intro a ha
      obtain ha | rfl := List.mem_append.mp ha |>.imp_right List.mem_singleton.mp
      · exact hi.entries a ha
      · exact returnAddress_add_two hp
  | regs V => exact (hi.setRegs V).advance hp
  | random V => exact (hi.setRegs V).drawn.advance hp
  | index _ ha V => exact ((hi.setI ha).setRegs V).advance hp
  | load V h => exact ((hi.setRegs V).postIncrement h).advance (by simpa using hp)
  | store hm h => exact ((hi.setMem hm).postIncrement h).advance (by simpa using hp)
  | bcd hm => exact (hi.setMem hm).advance hp
  | display _ d V => exact ((hi.setDisp d).setRegs V).advance hp
  | delay v => exact (hi.setDT v).advance hp
  | sound v => exact (hi.setST v).advance hp
  | wait =>
    have ha := hi.advance hp
    exact ⟨ha.memory, ha.index, ha.pc, ha.depth, ha.entries, fun _ _ => returnAddress_add_two hp⟩

theorem step (hi : Inv s) (e : Machine.step s = .next t) : Inv t := by
  obtain rfl | ⟨r, rfl⟩ | ⟨i, hr, hp, -, he⟩ := step_effect e
  · exact hi
  · exact hi.halt r
  · exact hi.effect hr hp he

/-- A ROM that fits ends inside memory, and the rest is as in a new core (R281). -/
theorem installRom (s : State) {rom : List Byte} (hfit : 0x200 + rom.length ≤ 0x1000) : Inv (s.installRom rom) where
  memory := Memory.wf_writeList Memory.wf_nil hfit
  index := Nat.zero_le _
  pc := show (BitVec.ofNat 16 Config.romBase).toNat ≤ 0x10FE by decide
  depth := Nat.zero_le _
  entries _ ha := nomatch ha
  waiting _ hx := nomatch hx

theorem load (hi : Inv s) (rom : List Byte) : Inv (load rom s).1 := by
  obtain ⟨hfit, e⟩ | ⟨-, e⟩ := load_cases rom s <;> rw [e]
  · exact installRom s hfit
  · exact hi.halt _

theorem setKey (hi : Inv s) (k : KeyIx) (p : Bool) : Inv (setKey k p s) := by
  obtain e | ⟨x, -, e⟩ := setKey_cases k p s <;> rw [e]
  · exact hi.setKeyState k p
  · exact ((hi.setKeyState k p).setReg x _).setRun fun _ h => nomatch h

theorem tickTimers (hi : Inv s) : Inv (tickTimers s) := (hi.setDT _).setST _

theorem command (hi : Inv s) {c : Command} {r : Return} (e : command c s = .next (t, r)) : Inv t :=
  command_keeps (fun rom _ h => h.load rom) (fun _ _ h => h.step) (fun _ h => h.tickTimers)
    (fun k p _ h => h.setKey k p) hi e

end Inv

end Sys2Proof.Machine

namespace Sys2Proof.Claims

open Sys2Proof.Machine

/-- Settles O57: a case split over the effects of an instruction, each within the bounds the address it was fetched from gives. -/
theorem stepKeepsInv : Obligations.StepKeepsInv := fun _ _ hi => hi.step

/-- Settles O58: `run_cycles` by induction over its steps, the load by the bound on the ROM. -/
theorem commandKeepsInv : Obligations.CommandKeepsInv := fun _ _ _ _ hi => hi.command

end Sys2Proof.Claims
end

section
/-! SUPPORT. Which instruction writes which part of the state: the frame of every effect, part by part. -/

namespace Sys2Proof.Machine

open Sys2Proof.Claims

namespace Effect

variable {s t : State} {i : Instr}

theorem quirks (e : Effect s i t) : t.quirks = s.quirks := by
  cases e <;> simp

theorem key (e : Effect s i t) : t.key = s.key := by
  cases e <;> simp

theorem DT (e : Effect s i t) (h : ∀ x, i ≠ .ldDTVx x) : t.DT = s.DT := by
  cases e with
  | delay v => exact absurd rfl (h _)
  | _ => simp

theorem ST (e : Effect s i t) (h : ∀ x, i ≠ .ldSTVx x) : t.ST = s.ST := by
  cases e with
  | sound v => exact absurd rfl (h _)
  | _ => simp

theorem stack (e : Effect s i t) (h : writesStack i = false) : t.stack = s.stack := by
  cases e with
  | ret _ => cases h
  | call _ => cases h
  | _ => simp

theorem disp (e : Effect s i t) (h : writesDisplay i = false) : t.disp = s.disp := by
  cases e with
  | display hw d V => cases hw.symm.trans h
  | _ => simp

theorem mem (e : Effect s i t) (h : writesMemory i = false) : t.mem = s.mem := by
  cases e with
  | store _ _ => cases h
  | bcd _ => cases h
  | _ => simp

/-- `Fx55` and `Fx65` write `I` exactly under their quirk (R198). -/
theorem I (e : Effect s i t) (h : writesIndex s.quirks i = false) : t.I = s.I := by
  cases e with
  | index hw ha V => cases (hw _).symm.trans h
  | load V _ =>
    have hq : s.quirks.indexIncrementOnDumpLoad = false := h
    simp [State.postIncrement_I, hq]
  | store _ _ =>
    have hq : s.quirks.indexIncrementOnDumpLoad = false := h
    simp [State.postIncrement_I, hq]
  | _ => simp

end Effect

/-- A pixel read looks at the display alone. -/
theorem State.pixel_congr {s t : State} (h : t.disp = s.disp) (u : Fin 64) (v : Fin 32) : t.pixel u v = s.pixel u v := by
  simp only [State.pixel, h]

/-! ### The general registers -/

theorem State.reg_setReg_of_ne {s : State} {x k : RegIx} (h : k ≠ x) (v : Byte) : (s.setReg x v).reg k = s.reg k := by
  rw [State.reg_setReg, if_neg h]

theorem State.reg_setResultFlag_of_ne {s : State} {x k : RegIx} (h : k ≠ x) (hf : k ≠ VF) (v w : Byte) :
    (s.setResultFlag x v w).reg k = s.reg k := by
  rw [State.reg_setResultFlag, if_neg hf, if_neg h]

theorem State.reg_setLogicResult_of_ne {s : State} {x k : RegIx} (h : k ≠ x)
    (hf : ¬ (s.quirks.vfResetOnLogicOps = true ∧ k = VF)) (v : Byte) : (s.setLogicResult x v).reg k = s.reg k := by
  rw [State.reg_setLogicResult, if_neg hf, if_neg h]

/-- A list of bytes loaded from V0 on leaves the registers past its end (R197). -/
theorem State.reg_setRegs_fillRegs_of_le {s : State} {bs : List Byte} {k : RegIx} (h : bs.length ≤ k.val) :
    (s.setRegs (fillRegs s.V 0 bs)).reg k = s.reg k := by
  have hk : bs[k.val]? = none := List.getElem?_eq_none h
  simp [State.reg, getElem_fillRegs, hk]

/-- A register the instruction does not list is kept, by instruction (R20, R21). -/
theorem exec_reg {i : Instr} {s t : State} {k : RegIx} (e : exec i s = .next t) (h : writesReg s.quirks k i = false) :
    t.reg k = s.reg k := by
  cases i
  case ret | callAddr | ldBVx | ldMemVx =>
    simp only [exec_ret, exec_callAddr, exec_ldBVx, exec_ldMemVx] at e
    split at e <;> cases e <;> exact State.reg_congr (by simp) k
  case drwVxVyN x y n =>
    rw [exec_drwVxVyN] at e
    split at e <;> cases e
    · rfl
    · exact State.reg_setReg_of_ne (by simpa [writesReg] using h) _
  case ldVxMem x =>
    rw [exec_ldVxMem] at e
    split at e <;> cases e
    · rfl
    · have hk : x < k := by simpa [writesReg] using h
      rw [State.reg_congr (State.advance_V _), State.reg_congr (State.postIncrement_V _ x)]
      exact State.reg_setRegs_fillRegs_of_le (by simpa using hk)
  all_goals cases e
  case ldVxByte | addVxByte | ldVxVy | rndVxByte | ldVxDT =>
    exact State.reg_setReg_of_ne (by simpa [writesReg] using h) _
  case orVxVy x y | andVxVy x y | xorVxVy x y =>
    obtain ⟨hx, hVF⟩ : k ≠ x ∧ (k = VF → s.quirks.vfResetOnLogicOps = false) := by simpa [writesReg] using h
    exact State.reg_setLogicResult_of_ne hx (fun ⟨hq, hk⟩ => by simp [hVF hk] at hq) _
  case addVxVy x y | subVxVy x y | shrVxVy x y | subnVxVy x y | shlVxVy x y =>
    obtain ⟨hx, hVF⟩ : k ≠ x ∧ k ≠ VF := by simpa [writesReg] using h
    exact State.reg_setResultFlag_of_ne hx hVF _ _
  case addIVx x =>
    have hVF : k = VF → s.quirks.indexOverflowSetsVf = false := by simpa [writesReg] using h
    exact (State.reg_setIndexFlag _ _ k).trans (if_neg fun ⟨hq, hk⟩ => by simp [hVF hk] at hq)
  all_goals rfl

end Sys2Proof.Machine

namespace Sys2Proof.Claims

open Sys2Proof.Machine

/-- Settles O46: the frame of the effect `exec` has, part by part. -/
theorem onlyWritersChangeState : Obligations.OnlyWritersChangeState := by
  intro i s t e
  have f := exec_effect e
  exact ⟨f.quirks, State.keyPressed_congr f.key, f.DT, f.ST, f.stack, fun h => State.pixel_congr (f.disp h),
    fun h => State.byteAt_congr (f.mem h), f.I⟩

/-- Settles O47: instruction by instruction, a register that is not listed is not written. -/
theorem onlyListedInstructionsWriteRegisters : Obligations.OnlyListedInstructionsWriteRegisters :=
  fun _ _ _ _ e h => exec_reg e h

end Sys2Proof.Claims
end

section
/-! SUPPORT. The quirk configuration through a sequence of commands, and the reads. -/

namespace Sys2Proof.Machine

/-! ### The quirks (R37) -/

theorem step_quirks {s t : State} (e : step s = .next t) : t.quirks = s.quirks := by
  obtain rfl | ⟨r, rfl⟩ | ⟨i, -, -, -, f⟩ := step_effect e
  · rfl
  · rfl
  · exact f.quirks

theorem load_quirks (rom : List Byte) (s : State) : (load rom s).1.quirks = s.quirks := by
  obtain ⟨-, e⟩ | ⟨-, e⟩ := load_cases rom s <;> rw [e] <;> rfl

theorem setKey_quirks (k : KeyIx) (p : Bool) (s : State) : (setKey k p s).quirks = s.quirks := by
  obtain e | ⟨x, -, e⟩ := setKey_cases k p s <;> rw [e] <;> rfl

theorem command_quirks {q : Quirks} {c : Command} {s t : State} {r : Return} (hs : s.quirks = q)
    (e : command c s = .next (t, r)) : t.quirks = q :=
  command_keeps (P := fun u => u.quirks = q) (fun rom s => (load_quirks rom s).trans) (fun _ _ h e => (step_quirks e).trans h)
    (fun _ h => h) (fun k p s => (setKey_quirks k p s).trans) hs e

/-! ### The framebuffer snapshot (R32) -/

theorem State.framebuffer_eq_flatten (s : State) : s.framebuffer = s.disp.flatten.toList := by
  change _ = (s.disp.toArray.map Vector.toArray).flatten.toList
  rw [Array.toList_flatten, Array.toList_map, List.map_map]
  rfl

theorem State.getElem?_framebuffer (s : State) (x : Fin 64) (y : Fin 32) :
    s.framebuffer[y.val * 64 + x.val]? = some (s.pixel x y) := by
  have hrow : (y.val * 64 + x.val) / 64 = y.val := by omega
  have hcol : (y.val * 64 + x.val) % 64 = x.val := by omega
  have hlt : y.val * 64 + x.val < 32 * 64 := by omega
  rw [State.framebuffer_eq_flatten, Vector.getElem?_toList, Vector.getElem?_eq_getElem hlt, Vector.getElem_flatten hlt]
  simp only [hrow, hcol]
  rfl

end Sys2Proof.Machine

namespace Sys2Proof.Claims

open Sys2Proof.Machine

/-- Settles O54: a load, the one command that builds a new state, builds it with the quirks it found. -/
theorem quirksAreImmutable : Obligations.QuirksAreImmutable :=
  ⟨fun _ => rfl, fun _ _ _ _ e => commands_keep (fun _ _ _ _ => command_quirks) rfl e⟩

/-- Settles O55: a read hands its state back, and the snapshot is the rows one after another. -/
theorem observationsReadWithoutChange : Obligations.ObservationsReadWithoutChange :=
  ⟨fun q s => ⟨s.observe q, rfl⟩, fun s => ⟨rfl, by simp [State.framebuffer_eq_flatten], s.getElem?_framebuffer⟩⟩

end Sys2Proof.Claims
end

section
/-! SUPPORT. The sound timer is read by no instruction: a write to it commutes with every operation and every execution. -/

namespace Sys2Proof.Machine

namespace State

theorem ite_setST (c : Prop) [Decidable c] (s t : State) (v : Byte) :
    (if c then s else t).setST v = if c then s.setST v else t.setST v := apply_ite (setST · v) c s t

theorem setLogicResult_setST (s : State) (v : Byte) (x : RegIx) (r : Byte) :
    (s.setST v).setLogicResult x r = (s.setLogicResult x r).setST v := by
  unfold setLogicResult
  rw [ite_setST]
  rfl

theorem setIndexFlag_setST (s : State) (v : Byte) (sum : Nat) :
    (s.setST v).setIndexFlag sum = (s.setIndexFlag sum).setST v := by
  unfold setIndexFlag
  rw [ite_setST]
  rfl

theorem postIncrement_setST (s : State) (v : Byte) (x : RegIx) :
    (s.setST v).postIncrement x = (s.postIncrement x).setST v := by
  unfold postIncrement
  rw [ite_setST]
  rfl

end State

/-- An instruction but `Fx18`, which overwrites the sound timer, carries it along unread (R29). -/
theorem exec_setST {i : Instr} (h : ∀ x, i ≠ .ldSTVx x) {s t : State} (e : exec i s = .next t) (v : Byte) :
    exec i (s.setST v) = .next (t.setST v) := by
  cases i
  case ldSTVx x => exact absurd rfl (h x)
  case ret =>
    rw [exec_ret] at e ⊢
    cases e
    cases hs : s.stack.getLast? <;> simp only [State.setST_stack, hs] <;> rfl
  case callAddr | ldBVx | drwVxVyN =>
    simp only [exec_callAddr, exec_ldBVx, exec_drwVxVyN] at e ⊢
    cases e
    rw [State.ite_setST]
    rfl
  case ldMemVx x =>
    rw [exec_ldMemVx] at e ⊢
    cases e
    rw [State.ite_setST]
    exact congrArg _ (if_congr Iff.rfl rfl (congrArg State.advance (State.postIncrement_setST (s.setMem _) v x)))
  case ldVxMem x =>
    rw [exec_ldVxMem] at e ⊢
    cases e
    rw [State.ite_setST]
    exact congrArg _ (if_congr Iff.rfl rfl (congrArg State.advance (State.postIncrement_setST (s.setRegs _) v x)))
  all_goals cases e
  case orVxVy | andVxVy | xorVxVy => exact congrArg (Host.Outcome.next ·.advance) (State.setLogicResult_setST s v _ _)
  case addIVx => exact congrArg (Host.Outcome.next ·.advance) (State.setIndexFlag_setST (s.setI _) v _)
  all_goals rfl

end Sys2Proof.Machine

namespace Sys2Proof.Claims

open Sys2Proof.Machine

/-- Settles O48: every instruction carries the sound timer along, but for `Fx18`, which sets it to the same value in both cores. -/
theorem soundTimerIsUnobserved : Obligations.SoundTimerIsUnobserved := by
  intro i s v
  by_cases h : ∃ x, i = .ldSTVx x
  · obtain ⟨x, rfl⟩ := h
    exact ⟨_, s.reg x, rfl, rfl⟩
  · obtain ⟨t, e⟩ := exec_answers i s
    exact ⟨t, v, e, exec_setST (not_exists.mp h) e v⟩

end Sys2Proof.Claims
end

section
/-! SUPPORT. The core's step with the random byte as an input: where it executes `Cxkk`, where it does not, and the step of the
host's interface in each case. -/

namespace Sys2Proof.Machine

open Sys2Proof.Claims

/-! ### The instruction a step executes -/

theorem State.fetchInstr_eq_ok_iff (s : State) (i : Instr) :
    s.fetchInstr = .ok i ↔ legalPc s.pc = true ∧ decodeWord s.wordAtPc = some i := by
  rw [State.fetchInstr_eq]
  cases legalPc s.pc
  · simp
  · cases decodeWord s.wordAtPc <;> simp

/-- A running core executes what it fetches (R129), whatever executes instructions. -/
theorem stepSelect_of_fetch (execute : Instr → State → Host.Outcome State Fault Refusal) {s : State} {i : Instr}
    (hr : s.run = .running) (hf : s.fetchInstr = .ok i) : stepSelect execute s = execute i s := by
  simp only [stepSelect, hr, stepRunning, hf]

/-- Two bytes decode to an instruction exactly when their word does (R90). -/
theorem decode_pair_eq_ok_iff (hi lo : Byte) (i : Instr) :
    decode [hi, lo] = .ok (i, []) ↔ decodeWord (wordOfBytes hi lo) = some i := by
  simp only [decode]
  cases decodeWord (wordOfBytes hi lo) <;> simp

theorem illegalPc_iff (a : Word) : IllegalPc a ↔ legalPc a = false := by
  rw [← Bool.not_eq_true, legalPc_iff]
  omega

/-- The next step executes `Cxkk` exactly when the core runs and fetches it; the place in the stream plays no part. -/
theorem executesRandom_iff (s : State) (x : RegIx) (kk : Byte) :
    ExecutesRandom s.toCoreState x kk ↔ s.run = .running ∧ s.fetchInstr = .ok (.rndVxByte x kk) := by
  rw [ExecutesRandom, illegalPc_iff, Bool.not_eq_false, decode_pair_eq_ok_iff, State.fetchInstr_eq_ok_iff]
  rfl

/-! ### Where the core executes `Cxkk` -/

theorem stepWithDraw_of_random {c : CoreState} {x : RegIx} {kk : Byte} (h : ExecutesRandom c x kk) (draw : Byte) :
    stepWithDraw draw c = .next { c with V := c.V.set x (draw &&& kk), pc := c.pc + 2 } := by
  obtain ⟨hr, hf⟩ := (executesRandom_iff (c.withDraws 0) x kk).mp h
  rw [stepWithDraw, stepSelect_of_fetch _ hr hf]
  rfl

theorem step_of_random {s : State} {x : RegIx} {kk : Byte} (h : ExecutesRandom s.toCoreState x kk) :
    step s = .next (rndWithDraw (Config.randomByte s.draws) x kk s) := by
  obtain ⟨hr, hf⟩ := (executesRandom_iff s x kk).mp h
  exact stepSelect_of_fetch exec hr hf

/-! ### Where it does not -/

/-- The byte plays no part, and neither does the place in the stream. -/
theorem stepWithDraw_of_not_random {s : State} (h : ∀ x kk, ¬ ExecutesRandom s.toCoreState x kk) (draw : Byte) :
    stepWithDraw draw s.toCoreState = coreOutcome (step s) := by
  cases hr : s.run with
  | running =>
    cases hf : s.fetchInstr with
    | ok i =>
      have hne : ∀ x kk, i ≠ .rndVxByte x kk := fun x kk e => h x kk ((executesRandom_iff s x kk).mpr ⟨hr, e ▸ hf⟩)
      rw [stepWithDraw, step, stepSelect_of_fetch exec hr hf, stepSelect_of_fetch (s := s.toCoreState.withDraws 0) _ hr hf,
        execWithDraw_of_ne hne, coreOutcome_exec_withDraws hne]
    | error r =>
      have hf' : (s.toCoreState.withDraws 0).fetchInstr = .error r := hf
      simp only [stepWithDraw, step, stepSelect, stepRunning, CoreState.withDraws_toCoreState, hr, hf, hf', coreOutcome_next]
      rfl
  | waitingForKey x => rw [step_waiting hr, coreOutcome_next, stepWithDraw_not_running (by simp [hr])]
  | halted r => rw [step_halted hr, coreOutcome_next, stepWithDraw_not_running (by simp [hr])]

theorem step_draws_of_not_random {s t : State} (h : ∀ x kk, ¬ ExecutesRandom s.toCoreState x kk) (e : step s = .next t) :
    t.draws = s.draws := by
  cases hr : s.run with
  | running =>
    obtain ⟨-, e'⟩ | ⟨-, -, e'⟩ | ⟨i, hp, hd, e'⟩ := step_running hr
    · cases e.symm.trans e'
      rfl
    · cases e.symm.trans e'
      rfl
    · refine exec_draws_of_ne (fun x kk hi => ?_) (e'.symm.trans e)
      exact h x kk ((executesRandom_iff s x kk).mpr ⟨hr, (s.fetchInstr_eq_ok_iff _).mpr ⟨hp, hi ▸ hd⟩⟩)
  | waitingForKey x =>
    cases (step_waiting hr).symm.trans e
    rfl
  | halted r =>
    cases (step_halted hr).symm.trans e
    rfl

theorem stepWithDraw_answers (draw : Byte) (c : CoreState) : ∃ c', stepWithDraw draw c = .next c' := by
  by_cases h : ∃ x kk, ExecutesRandom c x kk
  · obtain ⟨x, kk, h⟩ := h
    exact ⟨_, stepWithDraw_of_random h draw⟩
  · obtain ⟨t, e⟩ := step_answers (c.withDraws 0)
    have h' : ∀ x kk, ¬ ExecutesRandom (c.withDraws 0).toCoreState x kk := by simpa using h
    exact ⟨t.toCoreState, (stepWithDraw_of_not_random h' draw).trans (congrArg coreOutcome e)⟩

/-- The step of the host's interface is the core's step on the next byte of the stream (log entry 2). -/
theorem stepWithDraw_randomByte {s t : State} (e : step s = .next t) :
    stepWithDraw (Config.randomByte s.draws) s.toCoreState = .next t.toCoreState := by
  by_cases h : ∃ x kk, ExecutesRandom s.toCoreState x kk
  · obtain ⟨x, kk, h⟩ := h
    cases (step_of_random h).symm.trans e
    exact stepWithDraw_of_random h _
  · rw [stepWithDraw_of_not_random (by simpa using h), e, coreOutcome_next]

end Sys2Proof.Machine

namespace Sys2Proof.Claims

open Sys2Proof.Machine

/-- Settles O60: a case split on whether the core executes `Cxkk`. Where it does, the step is computed; where it does not, it is the
step of the host's interface, which has no byte as an input. -/
theorem randomByteIsAnInput : Obligations.RandomByteIsAnInput := by
  refine ⟨stepWithDraw_answers, fun draw c x kk h => stepWithDraw_of_random h draw, fun draw draw' c h => ?_, fun s t e => ?_⟩
  · exact (stepWithDraw_of_not_random (s := c.withDraws 0) h draw).trans
      (stepWithDraw_of_not_random (s := c.withDraws 0) h draw').symm
  · refine ⟨stepWithDraw_randomByte e, fun x kk h => ?_, fun h => step_draws_of_not_random h e⟩
    cases (step_of_random h).symm.trans e
    rfl

end Sys2Proof.Claims
end

section
/-! SUPPORT. Single byte accesses, and the instruction that is fetched from bytes `Fx55` has stored. -/

namespace Sys2Proof.Machine

open Sys2Proof.Claims

/-! ### Single byte accesses (R61, R62) -/

theorem memRead_of_lt (m : Memory) {a : Nat} (h : a < Config.memSize) : memRead m a = .ok (m.read a) := if_pos h

theorem memRead_of_ge (m : Memory) {a : Nat} (h : Config.memSize ≤ a) : memRead m a = .error .memoryOutOfBounds :=
  if_neg (Nat.not_lt.mpr h)

theorem memWrite_of_lt (m : Memory) {a : Nat} (h : a < Config.memSize) (v : Byte) : memWrite m a v = .ok (m.write a v) :=
  if_pos h

theorem memWrite_of_ge (m : Memory) {a : Nat} (h : Config.memSize ≤ a) (v : Byte) :
    memWrite m a v = .error .memoryOutOfBounds :=
  if_neg (Nat.not_lt.mpr h)

/-! ### Storing registers and fetching what was stored (R75, R196) -/

/-- Where its range lies in memory, `Fx55` stores the registers (R196). -/
theorem exec_ldMemVx_of_le {s : State} {x : RegIx} (h : indexBase s + (x.val + 1) ≤ Config.memSize) :
    exec (.ldMemVx x) s
      = .next ((s.setMem (s.mem.writeList (indexBase s) (s.regsUpTo x))).postIncrement x).advance := by
  rw [exec_ldMemVx, if_neg (Nat.not_lt.mpr h)]

/-- The byte `a + k` after V0 to Vx were stored from `a` on is `V[k]`, for k up to x. -/
theorem read_writeList_regsUpTo {m : Memory} (hm : m.wf) (s : State) {x k : RegIx} (h : k ≤ x) (a : Nat) :
    (m.writeList a (s.regsUpTo x)).read (a + k.val) = s.reg k := by
  rw [Memory.read_writeList hm.1, if_pos (Nat.le_add_right a k.val), Nat.add_sub_cancel_left, s.getElem?_regsUpTo x k h,
    Option.getD_some]

/-- A running core executes the instruction the two bytes at a legal `pc` stand for (R129, R130). -/
theorem step_of_decode {s : State} {i : Instr} (hr : s.run = .running) (hp : ¬ IllegalPc s.pc)
    (hd : decode [s.byteAt s.pc.toNat, s.byteAt (s.pc.toNat + 1)] = .ok (i, [])) : step s = exec i s := by
  rw [illegalPc_iff, Bool.not_eq_false] at hp
  exact stepSelect_of_fetch exec hr ((s.fetchInstr_eq_ok_iff i).mpr ⟨hp, (decode_pair_eq_ok_iff _ _ i).mp hd⟩)

end Sys2Proof.Machine

namespace Sys2Proof.Claims

open Sys2Proof.Machine

/-- Settles O34: the two bytes at the old `I` are V0 and V1 once they are stored, so they decode to the instruction there. -/
theorem storedWordIsFetched : Obligations.StoredWordIsFetched := by
  intro s x i hm hx hfit hI hd
  refine ⟨_, exec_ldMemVx_of_le hfit, fun u hu hr hp => ?_⟩
  have hmem : u.mem = s.mem.writeList s.I.toNat (s.regsUpTo x) := by simpa [indexBase] using hu
  have stored (k : RegIx) (hk : k ≤ x) : u.byteAt (s.I.toNat + k.val) = s.reg k := by
    rw [State.byteAt, hmem, read_writeList_regsUpTo hm s hk]
  have h0 : u.byteAt s.I.toNat = s.reg 0 := stored 0 (Fin.zero_le x)
  have h1 : u.byteAt (s.I.toNat + 1) = s.reg 1 := stored 1 hx
  exact step_of_decode hr (hp ▸ hI) (by rw [hp, h0, h1, hd])

/-- Settles O35: a case split on the bounds check; a write in bounds keeps memory canonical, so what is read back is known. -/
theorem byteAccess : Obligations.ByteAccess := by
  intro m a v hm
  refine ⟨fun h => ⟨memRead_of_lt m h, m.write a v, memWrite_of_lt m h v, Memory.wf_write hm h v, ?_, fun b hb => ?_⟩,
    fun h => ⟨memRead_of_ge m h, memWrite_of_ge m h v⟩⟩
  · rw [memRead_of_lt _ h, Memory.read_write hm.1, if_pos rfl]
  · rw [Memory.read_write hm.1, if_neg hb]

end Sys2Proof.Claims
end

section
/-! SUPPORT. The word decoder and the encoder are inverse to each other: each field of a format is read from the bits it is
written to. -/

namespace Sys2Proof

/-! ### From an instruction to its word and back (R92, R94) -/

theorem fieldN_formXyn {op : Nat} (h : op < 16) (x y : RegIx) (n : Height) : fieldN (formXyn op x y n.val) = n := by
  obtain ⟨-, -, -, hn⟩ := fields_formXyn h n.isLt x y
  rw [fieldN, hn]
  exact Fin.ofNat_val_eq_self n

/-- The operation nibble and the sub-operation of the word select the instruction's constructor, and each operand is read from the
field it was written to. -/
theorem decodeWord_encode (i : Instr) : decodeWord (encode i) = some i := by
  cases i
  case cls | ret => rfl
  case jpAddr | callAddr | ldIAddr | jpV0Addr => simp [encode, decodeWord, fields_formAddr]
  case seVxByte | sneVxByte | ldVxByte | addVxByte | rndVxByte => simp [encode, decodeWord, fields_formXkk]
  case seVxVy | sneVxVy => simp [encode, decodeWord, fields_formXyn]
  case drwVxVyN x y n => simp [encode, decodeWord, fields_formXyn, fieldN_formXyn]
  case skpVx | sknpVx => simp [encode, decodeWord, decodeGroupE, fields_formX]
  case ldVxDT | ldVxK | ldDTVx | ldSTVx | addIVx | ldFVx | ldBVx | ldMemVx | ldVxMem =>
    simp [encode, decodeWord, decodeGroupF, fields_formX]
  case ldVxVy | orVxVy | andVxVy | xorVxVy | addVxVy | subVxVy | shrVxVy | subnVxVy | shlVxVy =>
    simp [encode, decodeWord, decodeGroup8, fields_formXyn]

/-! ### From a word to its instruction and back (R92, R101) -/

theorem formAddr_fields {w : Word} {op : Nat} (h : opNibble w = op) : formAddr op (fieldNnn w) = w := by
  have := w.isLt
  refine BitVec.eq_of_toNat_eq ?_
  simp only [← h, formAddr, opNibble, fieldNnn, bits, BitVec.toNat_ofNat]
  omega

theorem formXkk_fields {w : Word} {op : Nat} (h : opNibble w = op) : formXkk op (fieldX w) (fieldKk w) = w := by
  have := w.isLt
  refine BitVec.eq_of_toNat_eq ?_
  simp only [← h, formXkk, opNibble, fieldX, fieldKk, bits, BitVec.toNat_ofNat, Fin.val_ofNat]
  omega

theorem formXyn_fields {w : Word} {op last : Nat} (h : opNibble w = op) (h' : bits w 3 0 = last) :
    formXyn op (fieldX w) (fieldY w) last = w := by
  have := w.isLt
  refine BitVec.eq_of_toNat_eq ?_
  simp only [← h, ← h', formXyn, opNibble, fieldX, fieldY, bits, BitVec.toNat_ofNat, Fin.val_ofNat]
  omega

theorem formX_fields {w : Word} {op low : Nat} (h : opNibble w = op) (h' : bits w 7 0 = low) :
    formX op (fieldX w) low = w := by
  have := w.isLt
  refine BitVec.eq_of_toNat_eq ?_
  simp only [← h, ← h', formX, opNibble, fieldX, bits, BitVec.toNat_ofNat, Fin.val_ofNat]
  omega

theorem bits_3_0_eq_fieldN (w : Word) : bits w 3 0 = (fieldN w).val := by
  simp only [fieldN, bits, Fin.val_ofNat]
  omega

theorem encode_of_decodeGroup0 {w : Word} {i : Instr} (hd : decodeGroup0 w = some i) : encode i = w := by
  unfold decodeGroup0 at hd
  split at hd <;> cases hd
  all_goals exact BitVec.eq_of_toNat_eq (Eq.symm ‹_›)

theorem encode_of_decodeGroup8 {w : Word} {i : Instr} (h : opNibble w = 0x8) (hd : decodeGroup8 w = some i) : encode i = w := by
  unfold decodeGroup8 at hd
  split at hd <;> cases hd
  all_goals exact formXyn_fields h ‹_›

theorem encode_of_decodeGroupE {w : Word} {i : Instr} (h : opNibble w = 0xE) (hd : decodeGroupE w = some i) : encode i = w := by
  unfold decodeGroupE at hd
  split at hd <;> cases hd
  all_goals exact formX_fields h ‹_›

theorem encode_of_decodeGroupF {w : Word} {i : Instr} (h : opNibble w = 0xF) (hd : decodeGroupF w = some i) : encode i = w := by
  unfold decodeGroupF at hd
  split at hd <;> cases hd
  all_goals exact formX_fields h ‹_›

/-- In each group of R94 the word is rebuilt from the fields the decoder read. -/
theorem encode_of_decodeWord {w : Word} {i : Instr} (hd : decodeWord w = some i) : encode i = w := by
  unfold decodeWord at hd
  split at hd
  case h_1 => exact encode_of_decodeGroup0 hd
  case h_2 h | h_3 h | h_11 h | h_12 h => cases hd; exact formAddr_fields h
  case h_4 h | h_5 h | h_7 h | h_8 h | h_13 h => cases hd; exact formXkk_fields h
  case h_6 h | h_10 h =>
    split at hd <;> cases hd
    exact formXyn_fields h ‹_›
  case h_9 h => exact encode_of_decodeGroup8 h hd
  case h_14 h => cases hd; exact formXyn_fields h (bits_3_0_eq_fieldN w)
  case h_15 h => exact encode_of_decodeGroupE h hd
  case h_16 h => exact encode_of_decodeGroupF h hd
  case h_17 => cases hd

end Sys2Proof

namespace Sys2Proof.Claims

/-- Settles O10: the word decodes by the fields of its format, and its two bytes are read back as that word. -/
theorem decodeOfEncode : Obligations.DecodeOfEncode := by
  refine fun i => ⟨decodeWord_encode i, fun rest => ?_⟩
  rw [encodeBytes, List.cons_append, List.cons_append, List.nil_append, decode_word, decodeWord_encode]

/-- Settles O11: the word is rebuilt from the fields the decoder read. -/
theorem encodeOfDecode : Obligations.EncodeOfDecode := fun _ _ => encode_of_decodeWord

/-- Settles O12: each word is the word of its instruction, bit for bit; the last one has 1 where group 5 requires 0 (R96). -/
theorem sampleWordsDecode : Obligations.SampleWordsDecode :=
  ⟨decodeWord_encode .cls, decodeWord_encode (.jpAddr 0x234), decodeWord_encode (.seVxByte 3 0x05),
    decodeWord_encode (.addVxVy 1 2), decodeWord_encode (.ldIAddr 0x300), decodeWord_encode (.drwVxVyN 5 6 5),
    decodeWord_encode (.skpVx 1), decodeWord_encode (.ldVxMem 2), rfl⟩

end Sys2Proof.Claims
end

section
/-! SUPPORT. The words of the opcode map are the words that decode, and no two rows of it share a word. -/

namespace Sys2Proof

/-! ### A word that decodes lies in a row (R100) -/

/-- The word of every instruction is one of the instruction's own row. -/
theorem Laws.Encoding.of_instr (i : Instr) : Laws.Encoding.Statement i := by
  cases i
  exacts [cls, ret, jpAddr _, callAddr _, seVxByte _ _, sneVxByte _ _, seVxVy _ _, ldVxByte _ _, addVxByte _ _, ldVxVy _ _,
    orVxVy _ _, andVxVy _ _, xorVxVy _ _, addVxVy _ _, subVxVy _ _, shrVxVy _ _, subnVxVy _ _, shlVxVy _ _, sneVxVy _ _,
    ldIAddr _, jpV0Addr _, rndVxByte _ _, drwVxVyN _ _ _, skpVx _, sknpVx _, ldVxDT _, ldVxK _, ldDTVx _, ldSTVx _, addIVx _,
    ldFVx _, ldBVx _, ldMemVx _, ldVxMem _]

/-- A word that decodes is one of the row of its instruction. -/
theorem row_of_decodeWord {w : Word} {i : Instr} (h : decodeWord w = some i) :
    ∃ r ∈ opcodeTable, r.mnemonic = i.mnemonic ∧ r.hits w = true :=
  encode_of_decodeWord h ▸ Laws.Encoding.of_instr i

/-! ### A word of a row decodes (R100) -/

theorem eq_of_hits_FFFF {w v : Word} {m : String} (h : (Row.mk m 0xFFFF v).hits w = true) : w = v := by
  rwa [Row.hits, and_FFFF, beq_iff_eq] at h

theorem opNibble_of_hits_F000 {w v : Word} {m : String} (h : (Row.mk m 0xF000 v).hits w = true) :
    opNibble w = v.toNat / 0x1000 := by
  have hv : opNibble w * 0x1000 = v.toNat := by rwa [hits_iff, and_F000] at h
  omega

theorem fields_of_hits_F00F {w v : Word} {m : String} (h : (Row.mk m 0xF00F v).hits w = true) :
    opNibble w = v.toNat / 0x1000 ∧ bits w 3 0 = v.toNat % 0x1000 := by
  have hlt : bits w 3 0 < 16 := Nat.mod_lt _ (by decide)
  have hv : opNibble w * 0x1000 + bits w 3 0 = v.toNat := by rwa [hits_iff, and_F00F] at h
  omega

theorem fields_of_hits_F0FF {w v : Word} {m : String} (h : (Row.mk m 0xF0FF v).hits w = true) :
    opNibble w = v.toNat / 0x1000 ∧ bits w 7 0 = v.toNat % 0x1000 := by
  have hlt : bits w 7 0 < 256 := Nat.mod_lt _ (by decide)
  have hv : opNibble w * 0x1000 + bits w 7 0 = v.toNat := by rwa [hits_iff, and_F0FF] at h
  omega

theorem isSome_of_hits_rowsWithoutSubOp {w : Word} {r : Row} (hr : r ∈ rowsWithoutSubOp) (h : r.hits w = true) :
    (decodeWord w).isSome = true := by
  simp only [rowsWithoutSubOp, List.mem_cons, List.not_mem_nil, or_false] at hr
  obtain rfl | rfl | hr := hr
  · rw [eq_of_hits_FFFF h]
    rfl
  · rw [eq_of_hits_FFFF h]
    rfl
  · obtain rfl | rfl | rfl | rfl | rfl | rfl | rfl | rfl | rfl | rfl := hr
    all_goals simp [decodeWord, opNibble_of_hits_F000 h]

theorem isSome_of_hits_rowsXY {w : Word} {r : Row} (hr : r ∈ rowsXY) (h : r.hits w = true) :
    (decodeWord w).isSome = true := by
  simp only [rowsXY, List.mem_cons, List.not_mem_nil, or_false] at hr
  obtain rfl | rfl | rfl | rfl | rfl | rfl | rfl | rfl | rfl | rfl | rfl := hr
  all_goals simp [decodeWord, decodeGroup8, fields_of_hits_F00F h]

theorem isSome_of_hits_rowsX {w : Word} {r : Row} (hr : r ∈ rowsX) (h : r.hits w = true) :
    (decodeWord w).isSome = true := by
  simp only [rowsX, List.mem_cons, List.not_mem_nil, or_false] at hr
  obtain rfl | rfl | rfl | rfl | rfl | rfl | rfl | rfl | rfl | rfl | rfl := hr
  all_goals simp [decodeWord, decodeGroupE, decodeGroupF, fields_of_hits_F0FF h]

/-- A word of a row decodes: the row's mask keeps the fields the decoder selects on. -/
theorem isSome_of_hits {w : Word} {r : Row} (hr : r ∈ opcodeTable) (h : r.hits w = true) : (decodeWord w).isSome = true := by
  simp only [opcodeTable, List.mem_append] at hr
  obtain (hr | hr) | hr := hr
  · exact isSome_of_hits_rowsWithoutSubOp hr h
  · exact isSome_of_hits_rowsXY hr h
  · exact isSome_of_hits_rowsX hr h

/-! ### Acceptance, and no shared word (R100, R102) -/

theorem isInstructionWord_iff (w : Word) : isInstructionWord w = true ↔ ∃ r ∈ opcodeTable, r.hits w = true :=
  List.any_eq_true

theorem isSome_decodeWord (w : Word) : (decodeWord w).isSome = isInstructionWord w := by
  rw [Bool.eq_iff_iff, isInstructionWord_iff]
  constructor
  · intro h
    obtain ⟨i, hi⟩ := Option.isSome_iff_exists.mp h
    obtain ⟨r, hr, -, hw⟩ := row_of_decodeWord hi
    exact ⟨r, hr, hw⟩
  · rintro ⟨r, hr, hw⟩
    exact isSome_of_hits hr hw

/-- Where two rows match one word, each value under the other's mask is that word under both masks. -/
theorem and_mask_eq_of_matches {w : Word} {r r' : Row} (h : w &&& r.mask = r.value) (h' : w &&& r'.mask = r'.value) :
    r.value &&& r'.mask = r'.value &&& r.mask := by
  rw [← h, ← h', BitVec.and_assoc, BitVec.and_assoc, BitVec.and_comm r.mask]

/-- Any two rows differ in a bit that both masks keep. -/
theorem opcodeTable_pairwise_and_mask_ne :
    opcodeTable.Pairwise (fun r r' => r.value &&& r'.mask ≠ r'.value &&& r.mask) := by
  decide

end Sys2Proof

namespace Sys2Proof.Claims

/-- Settles O9: a word that decodes is the word of its instruction, so it lies in that instruction's row; a word of a row decodes by
the fields the row's mask keeps; and any two rows differ in a bit both masks keep. -/
theorem opcodeMapIsDecoded : Obligations.OpcodeMapIsDecoded := by
  refine ⟨isSome_decodeWord, fun w i hd => ?_, rfl, ?_⟩
  · obtain ⟨r, hr, hm, hw⟩ := row_of_decodeWord hd
    exact ⟨r, hr, hm, eq_of_beq hw⟩
  · exact opcodeTable_pairwise_and_mask_ne.imp fun hne w ⟨h, h'⟩ => hne (and_mask_eq_of_matches h h')

end Sys2Proof.Claims
end

section
/-! SUPPORT. The step: where it halts, what a halt keeps, and what it returns. With it, the composition of cycles and the placement of a
word at the fetch. -/

namespace Sys2Proof

/-- A word is rejected exactly when it lies in no row of the opcode map (R102). -/
theorem decodeWord_eq_none_iff (w : Word) : decodeWord w = none ↔ isInstructionWord w = false := by
  rw [← isSome_decodeWord, Option.isSome_eq_false_iff, Option.isNone_iff_eq_none]

end Sys2Proof

namespace Sys2Proof.Machine

open Sys2Proof.Claims

/-! ### The return value and the halted state (R14, R129, R253) -/

theorem State.stepReturn_of_waiting {s : State} {x : RegIx} (h : s.run = .waitingForKey x) : s.stepReturn = .ok := by
  simp only [stepReturn, h]

theorem State.stepReturn_of_halted {s : State} {r : HaltReason} (h : s.run = .halted r) : s.stepReturn = .fail r := by
  simp only [stepReturn, h]

/-- Halting a halted core with its own reason changes nothing. -/
theorem State.halt_of_halted {s : State} {r : HaltReason} (h : s.run = .halted r) : s.halt r = s := by
  rw [halt, setRun, ← h]

/-! ### The fetch (R130, R131, R135) -/

/-- Two bytes that lie in memory are fetched as a big-endian word (R130). -/
theorem fetch_of_lt (m : Memory) {a : Nat} (h : a + 1 < Config.memSize) :
    fetch m a = .ok (wordOfBytes (m.read a) (m.read (a + 1))) := by
  rw [fetch, memRead_of_lt m (Nat.lt_of_succ_lt h), memRead_of_lt m h]
  rfl

theorem step_of_illegalPc {s : State} (hr : s.run = .running) (hp : IllegalPc s.pc) :
    step s = .next (s.halt .memoryOutOfBounds) := by
  rw [illegalPc_iff] at hp
  obtain ⟨-, e⟩ | ⟨hl, -⟩ | ⟨i, hl, -⟩ := step_running hr
  · exact e
  · cases hp.symm.trans hl
  · cases hp.symm.trans hl

theorem step_of_unknownWord {s : State} (hr : s.run = .running) (hp : ¬ IllegalPc s.pc) (hd : decodeWord s.wordAtPc = none) :
    step s = .next (s.halt .unknownInstruction) := by
  rw [illegalPc_iff] at hp
  obtain ⟨hl, -⟩ | ⟨-, -, e⟩ | ⟨i, -, hi, -⟩ := step_running hr
  · exact absurd hl hp
  · exact e
  · cases hd.symm.trans hi

/-! ### Halts are precise (R134) -/

/-- Only the effect of a halt leaves a running core halted. -/
theorem Effect.eq_halt {s t : State} {i : Instr} {r : HaltReason} (e : Effect s i t) (hr : s.run = .running)
    (ht : t.run = .halted r) : t = s.halt r := by
  cases e with
  | halt r' =>
    cases ht
    rfl
  | wait => cases ht
  | _ => simp [hr] at ht

theorem step_eq_halt {s t : State} {r : HaltReason} (e : step s = .next t) (ht : t.run = .halted r) : t = s.halt r := by
  obtain rfl | ⟨r', rfl⟩ | ⟨i, hr, -, -, he⟩ := step_effect e
  · exact (State.halt_of_halted ht).symm
  · cases ht
    rfl
  · exact he.eq_halt hr ht

/-! ### The composition of cycles (R124) -/

theorem runCycles_one (s : State) : runCycles 1 s = stepCommand s := by
  obtain ⟨t, h⟩ := step_answers s
  rw [stepCommand_of_step h]
  obtain hr | ⟨r, hr⟩ := t.stepReturn_cases
  · rw [runCycles_succ_of_ok h hr, runCycles, hr]
  · rw [runCycles_succ_of_fail h hr, hr]

/-- m cycles that succeed are followed by the n that are left; m cycles that fail end the run, however many are left. -/
theorem runCycles_add {m : Nat} {s t : State} {ret : Return} (e : runCycles m s = .next (t, ret)) (n : Nat) :
    (ret = .ok → runCycles (m + n) s = runCycles n t) ∧
    (∀ r, ret = .fail r → runCycles (m + n) s = .next (t, .fail r)) := by
  induction m generalizing s with
  | zero =>
    cases e
    rw [Nat.zero_add]
    exact ⟨fun _ => rfl, nofun⟩
  | succ m ih =>
    obtain ⟨u, h⟩ := step_answers s
    rw [Nat.add_right_comm]
    obtain hr | ⟨r, hr⟩ := u.stepReturn_cases
    · rw [runCycles_succ_of_ok h hr] at e ⊢
      exact ih e
    · rw [runCycles_succ_of_fail h hr] at e ⊢
      cases e
      exact ⟨nofun, fun _ h' => h' ▸ rfl⟩

/-! ### Placement at the fetch (log entry 3) -/

theorem State.legalPc_placeAtFetch (s : State) (bs : List Byte) : legalPc (s.placeAtFetch bs).pc = true := by
  simp only [placeAtFetch, setRun_pc, setMem_pc, setPc_pc]
  split
  · assumption
  · decide

/-- The k-th byte placed lies k addresses above `pc`. -/
theorem State.byteAt_placeAtFetch {s : State} (hm : s.mem.wf) {bs : List Byte} {k : Nat} {b : Byte} (hb : bs[k]? = some b) :
    (s.placeAtFetch bs).byteAt ((s.placeAtFetch bs).pc.toNat + k) = b := by
  simp only [placeAtFetch, byteAt, setRun_pc, setRun_mem, setMem_pc, setMem_mem, setPc_pc]
  rw [Memory.read_writeList hm.1, if_pos (Nat.le_add_right _ k), Nat.add_sub_cancel_left, hb, Option.getD_some]

theorem State.wordAtPc_withFetchWord {s : State} (hm : s.mem.wf) (w : Word) : (s.withFetchWord 16 w.toNat).wordAtPc = w := by
  have high := byteAt_placeAtFetch hm (bs := [hiByte w, loByte w]) (k := 0) rfl
  have low := byteAt_placeAtFetch hm (bs := [hiByte w, loByte w]) (k := 1) rfl
  rw [Nat.add_zero] at high
  rw [withFetchWord, tableBytes, tableWord_toNat, wordAtPc, high, low, wordOfBytes_hiByte_loByte]

end Sys2Proof.Machine

namespace Sys2Proof.Claims

open Sys2Proof.Machine

/-- Settles O7: a word outside the opcode map does not decode, and a step halts where the word at `pc` does not. -/
theorem unknownWordHalts : Obligations.UnknownWordHalts := by
  intro s hr hp hw
  exact stepCommand_of_step (step_of_unknownWord hr hp ((decodeWord_eq_none_iff _).mpr hw))

/-- Settles O50: a step that leaves the core halted is a halt of the state before it, of which the return value tells. -/
theorem haltIsPrecise : Obligations.HaltIsPrecise := by
  intro s t ret r e ht
  obtain ⟨u, h⟩ := step_answers s
  cases (stepCommand_of_step h).symm.trans e
  exact ⟨step_eq_halt h ht, State.stepReturn_of_halted ht⟩

/-- Settles O52: by induction on the first m cycles, from every state. -/
theorem runCyclesComposes : Obligations.RunCyclesComposes :=
  ⟨fun _ => rfl, runCycles_one, fun _ n _ _ e => (runCycles_add e n).1 rfl, fun _ n _ _ r e => (runCycles_add e n).2 r rfl⟩

/-- Settles O59: the placed core runs at a legal `pc`, and reads back the word at `pc`, so that word is what it executes. -/
theorem placedWordRuns : Obligations.PlacedWordRuns := by
  intro s w i hm hd
  refine stepSelect_of_fetch exec rfl ((State.fetchInstr_eq_ok_iff _ i).mpr ⟨s.legalPc_placeAtFetch _, ?_⟩)
  rw [State.wordAtPc_withFetchWord hm, hd]

/-- Settles O4: the two bytes at `pc` are what the step fetches. -/
theorem stepRunsDecodedInstruction : Obligations.StepRunsDecodedInstruction := by
  intro s i hr hp hd
  have h : step s = exec i s := step_of_decode hr hp hd
  exact ⟨h, fun t e => stepCommand_of_step (h.trans e)⟩

/-- Settles O5: outside `Running` a step answers the state it began with, whose run state tells the return value. -/
theorem stepOutsideRunning : Obligations.StepOutsideRunning := by
  refine fun s => ⟨fun x h => ⟨step_waiting h, ?_⟩, fun r h => ⟨step_halted h, ?_⟩⟩
  · exact State.stepReturn_of_waiting h ▸ stepCommand_of_step (step_waiting h)
  · exact State.stepReturn_of_halted h ▸ stepCommand_of_step (step_halted h)

/-- Settles O6: the check of `pc` fails, so the step is a halt. -/
theorem illegalPcHaltsAtFetch : Obligations.IllegalPcHaltsAtFetch :=
  fun _ hr hp => stepCommand_of_step (step_of_illegalPc hr hp)

/-- Settles O8: an address the check admits is at most 0xFFE, so both bytes lie in memory. -/
theorem fetchIsBigEndian : Obligations.FetchIsBigEndian := by
  intro m a ha
  have hlt : a.toNat + 1 < Config.memSize := by
    simp only [Config.memSize]
    omega
  exact ⟨_, fetch_of_lt m hlt, toNat_wordOfBytes _ _⟩

end Sys2Proof.Claims
end

section
/-! SUPPORT. Control transfer: each instruction writes `pc`, the call and the return the stack beside it, and the target is checked by
the step that fetches there. -/

namespace Sys2Proof.Claims

open Sys2Proof.Machine

/-! ### What the updates of a control transfer leave unchanged -/

theorem onlyChanges_refl (parts : List Part) (s : State) : OnlyChanges parts s s := by
  intro p _
  cases p <;> simp [Part.same]

/-- `pc` is no part, so a write to it changes none. -/
theorem OnlyChanges.setPc {parts : List Part} {s t : State} (h : OnlyChanges parts s t) (a : Word) :
    OnlyChanges parts s (t.setPc a) := by
  intro p hp
  have hs : p.same s t := h p hp
  cases p <;> exact hs

theorem OnlyChanges.setStack {parts : List Part} {s t : State} (h : OnlyChanges parts s t) (hm : .stack ∈ parts)
    (st : List Word) : OnlyChanges parts s (t.setStack st) := by
  intro p hp
  have hs : p.same s t := h p hp
  cases p
  case stack => exact absurd hm hp
  all_goals exact hs

/-- What a call and a return write: the stack, and `pc`. -/
theorem onlyChanges_setStack_setPc (s : State) (st : List Word) (a : Word) :
    OnlyChanges [.stack] s ((s.setStack st).setPc a) :=
  ((onlyChanges_refl _ s).setStack (List.mem_singleton_self _) st).setPc a

/-- The check of the target is that of the next fetch: it is due where the transfer keeps the core running (R131, R140). -/
theorem targetCheckedByNextStep_of_run_eq {s t : State} (h : t.run = s.run) : TargetCheckedByNextStep s t :=
  fun hr hp => ⟨_, step_of_illegalPc (h.trans hr) hp, rfl⟩

end Sys2Proof.Claims

namespace Sys2Proof.Machine

open Sys2Proof.Claims

/-! ### The call stack (R141, R143) -/

theorem exec_ret_of_nil {s : State} (h : s.stack = []) : exec .ret s = .next (s.halt .stackUnderflow) := by
  rw [exec_ret, h]
  rfl

theorem exec_ret_of_append {s : State} {rest : List Word} {top : Word} (h : s.stack = rest ++ [top]) :
    exec .ret s = .next ((s.setStack rest).setPc top) := by
  simp only [exec_ret, h, List.getLast?_concat, List.dropLast_concat]

theorem exec_callAddr_of_ge {s : State} (h : Config.stackDepth ≤ s.stack.length) (nnn : Addr) :
    exec (.callAddr nnn) s = .next (s.halt .stackOverflow) := by
  rw [exec_callAddr, if_pos h]

theorem exec_callAddr_of_lt {s : State} (h : s.stack.length < Config.stackDepth) (nnn : Addr) :
    exec (.callAddr nnn) s = .next ((s.setStack (s.stack ++ [s.pc + 2])).setPc (addrWord nnn)) := by
  rw [exec_callAddr, if_neg (Nat.not_le_of_lt h)]

/-! ### The offset register of `Bnnn` (R148) -/

theorem jumpOffset_of_offsetRegister {s : State} {nnn : Addr} {r : RegIx} (h : OffsetRegister s nnn r) :
    jumpOffset s nnn = s.reg r := by
  unfold OffsetRegister at h
  unfold jumpOffset
  split at h
  · have hr : addrReg nnn = r := Fin.ext (by simp only [addrReg, Fin.val_ofNat, ← h]; omega)
    rw [if_pos ‹_›, hr]
  · rw [if_neg ‹_›, h]

/-! ### Skips (R149) -/

/-- An instruction that ends in a skip moves `pc` by 4 under whatever makes its test true, by 2 under whatever makes it false,
and changes nothing else. -/
theorem exec_of_skipIf {i : Instr} {s : State} {b : Bool} {P Q : Prop} (e : exec i s = .next (s.skipIf b))
    (hP : P → b = true) (hQ : Q → b = false) :
    ∃ t, exec i s = .next t ∧ OnlyChanges [] s t ∧ (P → t.pc = s.pc + 4) ∧ (Q → t.pc = s.pc + 2) := by
  refine ⟨_, e, (onlyChanges_refl _ s).setPc _, fun h => ?_, fun h => ?_⟩
  · rw [State.skipIf_pc, if_pos (hP h)]
  · rw [State.skipIf_pc, hQ h, if_neg Bool.false_ne_true]

end Sys2Proof.Machine

namespace Sys2Proof.Claims

open Sys2Proof.Machine

/-- Settles O15: the call pushed the address after it as the last entry, so the return pops that entry and leaves the rest. -/
theorem callThenReturnResumes : Obligations.CallThenReturnResumes := by
  intro s nnn hlt
  exact ⟨_, exec_callAddr_of_lt hlt nnn, fun u hu => ⟨_, exec_ret_of_append hu, rfl, rfl⟩⟩

/-- Settles O13: by whether the stack has a last entry. -/
theorem returnPopsOrUnderflows : Obligations.ReturnPopsOrUnderflows := by
  refine fun s => ⟨exec_ret_of_nil, fun rest top hs => ?_⟩
  exact ⟨_, exec_ret_of_append hs, rfl, rfl, onlyChanges_setStack_setPc s rest top, targetCheckedByNextStep_of_run_eq rfl⟩

/-- Settles O14: by whether the stack is full. -/
theorem callPushesOrOverflows : Obligations.CallPushesOrOverflows := by
  refine fun s nnn => ⟨fun h => exec_callAddr_of_ge h.ge nnn, fun h => ?_⟩
  exact ⟨_, exec_callAddr_of_lt h nnn, toNat_addrWord nnn, rfl, onlyChanges_setStack_setPc s _ _,
    targetCheckedByNextStep_of_run_eq rfl⟩

/-- Settles O16: the jump is a write to `pc`. -/
theorem jumpSetsPc : Obligations.JumpSetsPc :=
  fun s nnn => ⟨_, exec_jpAddr nnn s, toNat_addrWord nnn, (onlyChanges_refl _ s).setPc _, targetCheckedByNextStep_of_run_eq rfl⟩

/-- Settles O17: the sum of a 12-bit address and a byte fits in 16 bits. -/
theorem offsetJumpAddsRegister : Obligations.OffsetJumpAddsRegister := by
  intro s nnn r hr
  refine ⟨_, exec_jpV0Addr nnn s, ?_, (onlyChanges_refl _ s).setPc _, targetCheckedByNextStep_of_run_eq rfl⟩
  rw [State.setPc_pc, toNat_addrWord_add_zeroExtend, jumpOffset_of_offsetRegister hr]

/-- Settles O18: each of the four ends in a skip on the Boolean test of its comparison. -/
theorem registerSkips : Obligations.RegisterSkips := by
  intro s x y kk
  exact ⟨exec_of_skipIf (exec_seVxByte x kk s) beq_iff_eq.mpr beq_false_of_ne,
    exec_of_skipIf (exec_sneVxByte x kk s) bne_iff_ne.mpr (bne_eq_false_iff_eq.mpr ·),
    exec_of_skipIf (exec_seVxVy x y s) beq_iff_eq.mpr beq_false_of_ne,
    exec_of_skipIf (exec_sneVxVy x y s) bne_iff_ne.mpr (bne_eq_false_iff_eq.mpr ·)⟩

end Sys2Proof.Claims
end

section
/-! SUPPORT. Registers and arithmetic: each instruction ends in one of three writes to the register file (a register; a result and a
flag; a logic result), of which it is said once what a register then holds and what else is kept. -/

namespace Sys2Proof.Claims

open Sys2Proof.Machine

/-! ### What a write to the register file leaves unchanged -/

theorem OnlyChanges.setReg {parts : List Part} {s t : State} (h : OnlyChanges parts s t) (hm : .regs ∈ parts)
    (x : RegIx) (v : Byte) : OnlyChanges parts s (t.setReg x v) := by
  intro p hp
  have hs : p.same s t := h p hp
  cases p
  case regs => exact absurd hm hp
  all_goals exact hs

theorem OnlyChanges.setLogicResult {parts : List Part} {s t : State} (h : OnlyChanges parts s t) (hm : .regs ∈ parts)
    (x : RegIx) (v : Byte) : OnlyChanges parts s (t.setLogicResult x v) := by
  unfold State.setLogicResult
  split
  · exact (h.setReg hm x v).setReg hm VF 0
  · exact h.setReg hm x v

/-- A draw counts itself and does nothing else (log entry 2). -/
theorem OnlyChanges.drawn {parts : List Part} {s t : State} (h : OnlyChanges parts s t) (hm : .draws ∈ parts) :
    OnlyChanges parts s t.drawn := by
  intro p hp
  have hs : p.same s t := h p hp
  cases p
  case draws => exact absurd hm hp
  all_goals exact hs

end Sys2Proof.Claims

namespace Sys2Proof.Machine

open Sys2Proof.Claims

variable {i : Instr} {s : State} {x : RegIx}

/-! ### The three ends of an instruction that computes a register -/

/-- An instruction that ends in a write to one register (R161, R162, R163). -/
theorem exec_of_setReg {v : Byte} (e : exec i s = .next (s.setReg x v).advance) :
    ∃ t, exec i s = .next t ∧ t.pc = s.pc + 2 ∧ OnlyChanges [.regs] s t ∧
      t.reg x = v ∧ ∀ k, k ≠ x → t.reg k = s.reg k :=
  ⟨_, e, rfl, ((onlyChanges_refl _ s).setReg (List.mem_singleton_self _) x v).setPc _, s.reg_setReg_same x v,
    fun _ hk => State.reg_setReg_of_ne hk v⟩

/-- An instruction that ends in a write of a result and then of the flag, which VF therefore holds whatever x is (R176). -/
theorem exec_of_setResultFlag {v w : Byte} (e : exec i s = .next (s.setResultFlag x v w).advance) :
    ∃ t, exec i s = .next t ∧ t.pc = s.pc + 2 ∧ OnlyChanges [.regs] s t ∧
      (x ≠ VF → t.reg x = v) ∧ t.reg VF = w ∧ ∀ k, k ≠ x → k ≠ VF → t.reg k = s.reg k := by
  have hm : Part.regs ∈ [Part.regs] := List.mem_singleton_self _
  refine ⟨_, e, rfl, (((onlyChanges_refl _ s).setReg hm x v).setReg hm VF w).setPc _, fun hx => ?_, ?_,
    fun _ hk hVF => State.reg_setResultFlag_of_ne hk hVF v w⟩
  · exact (s.reg_setResultFlag x x v w).trans ((if_neg hx).trans (if_pos rfl))
  · exact (s.reg_setResultFlag x VF v w).trans (if_pos rfl)

/-- An instruction that ends in a logic result: the quirk clears VF after the result is written (R167, R176). -/
theorem exec_of_setLogicResult {v : Byte} (e : exec i s = .next (s.setLogicResult x v).advance) :
    ∃ t, exec i s = .next t ∧ t.pc = s.pc + 2 ∧ OnlyChanges [.regs] s t ∧
      (s.quirks.vfResetOnLogicOps = true → t.reg VF = 0) ∧
      (x ≠ VF ∨ s.quirks.vfResetOnLogicOps = false → t.reg x = v) ∧
      ∀ k, k ≠ x → k ≠ VF ∨ s.quirks.vfResetOnLogicOps = false → t.reg k = s.reg k := by
  have not_reset {k : RegIx} (h : k ≠ VF ∨ s.quirks.vfResetOnLogicOps = false) :
      ¬ (s.quirks.vfResetOnLogicOps = true ∧ k = VF) := by
    rintro ⟨hq, rfl⟩
    simp [hq] at h
  refine ⟨_, e, by simp, ((onlyChanges_refl _ s).setLogicResult (List.mem_singleton_self _) x v).setPc _,
    fun hq => ?_, fun h => ?_, fun k hk h => State.reg_setLogicResult_of_ne hk (not_reset h) v⟩
  · exact (s.reg_setLogicResult x VF v).trans (if_pos ⟨hq, rfl⟩)
  · exact (s.reg_setLogicResult x x v).trans ((if_neg (not_reset h)).trans (if_pos rfl))

/-! ### The flags and the shift source as numbers (R160, R170, R172, R173) -/

theorem flagByte_carry (a b : Byte) : flagByte (carry a b) = if 255 < a.toNat + b.toNat then 1 else 0 := by
  simp [flagByte, carry]

theorem flagByte_notBorrow (a b : Byte) : flagByte (notBorrow a b) = if b.toNat ≤ a.toNat then 1 else 0 := by
  simp [flagByte, notBorrow]

theorem toNat_bitOutRight (v : Byte) : (bitOutRight v).toNat = v.toNat % 2 :=
  (BitVec.toNat_and v 1).trans (Nat.and_one_is_mod v.toNat)

theorem toNat_bitOutLeft (v : Byte) : (bitOutLeft v).toNat = v.toNat / 128 :=
  (BitVec.toNat_ushiftRight v 7).trans (Nat.shiftRight_eq_div_pow v.toNat 7)

theorem shiftSource_eq_reg (s : State) (x y : RegIx) : shiftSource s x y = s.reg (ShiftRegister s x y) :=
  (apply_ite s.reg _ y x).symm

end Sys2Proof.Machine

namespace Sys2Proof.Claims

open Sys2Proof.Machine

/-- Settles O20: both write the one register `V[x]`. -/
theorem loadAndAddImmediate : Obligations.LoadAndAddImmediate := by
  intro s x kk
  refine ⟨exec_of_setReg (exec_ldVxByte x kk s), ?_⟩
  obtain ⟨t, e, hpc, hparts, hx, hrest⟩ := exec_of_setReg (exec_addVxByte x kk s)
  exact ⟨t, e, hpc, hparts, hx ▸ BitVec.toNat_add _ _, hrest⟩

/-- Settles O21: the copy writes the one register `V[x]`, with no look at a quirk. -/
theorem registerCopy : Obligations.RegisterCopy :=
  fun s x y => exec_of_setReg (exec_ldVxVy x y s)

/-- Settles O22: each of the three ends in a logic result whose bits are the operation on the operands' bits. -/
theorem logicOperations : Obligations.LogicOperations := by
  intro s x y i f hi
  obtain ⟨v, e, hv⟩ : ∃ v, exec i s = .next (s.setLogicResult x v).advance ∧
      ∀ b, v.getLsbD b = f ((s.reg x).getLsbD b) ((s.reg y).getLsbD b) := by
    obtain ⟨rfl, rfl⟩ | ⟨rfl, rfl⟩ | ⟨rfl, rfl⟩ := hi
    · exact ⟨_, exec_orVxVy x y s, fun _ => BitVec.getLsbD_or⟩
    · exact ⟨_, exec_andVxVy x y s, fun _ => BitVec.getLsbD_and⟩
    · exact ⟨_, exec_xorVxVy x y s, fun _ => BitVec.getLsbD_xor⟩
  obtain ⟨t, e, hpc, hparts, hreset, hx, hrest⟩ := exec_of_setLogicResult e
  exact ⟨t, e, hpc, hparts, hreset, fun h b _ => hx h ▸ hv b, hrest⟩

/-- Settles O23: the result is the sum and the flag the carry, which is written last. -/
theorem addWithCarry : Obligations.AddWithCarry := by
  intro s x y
  obtain ⟨t, e, hpc, hparts, hx, hVF, hrest⟩ := exec_of_setResultFlag (exec_addVxVy x y s)
  rw [flagByte_carry] at hVF
  exact ⟨t, e, hpc, hparts, fun h => hx h ▸ BitVec.toNat_add _ _, fun h => hVF.trans (if_pos h),
    fun h => hVF.trans (if_neg (Nat.not_lt.mpr h)), hrest⟩

/-- Settles O24: both end in the difference of two bytes and its NOT borrow, with the operands in one order or the other. -/
theorem subtractions : Obligations.Subtractions := by
  intro s x y i a b hi
  obtain ⟨u, v, e, rfl, rfl⟩ : ∃ u v : Byte,
      exec i s = .next (s.setResultFlag x (u - v) (flagByte (notBorrow u v))).advance ∧ u.toNat = a ∧ v.toNat = b := by
    obtain ⟨rfl, rfl, rfl⟩ | ⟨rfl, rfl, rfl⟩ := hi
    · exact ⟨_, _, exec_subVxVy x y s, rfl, rfl⟩
    · exact ⟨_, _, exec_subnVxVy x y s, rfl, rfl⟩
  obtain ⟨t, e, hpc, hparts, hx, hVF, hrest⟩ := exec_of_setResultFlag e
  rw [flagByte_notBorrow] at hVF
  refine ⟨t, e, hpc, hparts, fun h => ?_, fun h => hVF.trans (if_pos h),
    fun h => hVF.trans (if_neg (Nat.not_le.mpr h)), hrest⟩
  have := v.isLt
  rw [hx h, BitVec.toNat_sub]
  omega

/-- Settles O25: the result is the source shifted by one, and the flag the bit that leaves it. -/
theorem shifts : Obligations.Shifts := by
  intro s x y
  rw [← shiftSource_eq_reg]
  constructor
  · obtain ⟨t, e, hpc, hparts, hx, hVF, hrest⟩ := exec_of_setResultFlag (exec_shrVxVy x y s)
    refine ⟨t, e, hpc, hparts, fun h => ?_, hVF ▸ toNat_bitOutRight _, hrest⟩
    rw [hx h, BitVec.toNat_ushiftRight, Nat.shiftRight_eq_div_pow]
  · obtain ⟨t, e, hpc, hparts, hx, hVF, hrest⟩ := exec_of_setResultFlag (exec_shlVxVy x y s)
    refine ⟨t, e, hpc, hparts, fun h => ?_, hVF ▸ toNat_bitOutLeft _, hrest⟩
    rw [hx h, BitVec.toNat_shiftLeft, Nat.shiftLeft_eq]

/-- Settles O26: a bit of the masked byte is 1 where it is 1 in both the drawn byte and kk. -/
theorem randomIsMaskedDraw : Obligations.RandomIsMaskedDraw := by
  intro s x kk
  refine ⟨_, exec_rndVxByte x kk s, rfl,
    (((onlyChanges_refl _ s).setReg (by simp) x _).drawn (by simp)).setPc _, rfl, fun b _ => ?_,
    fun k hk => State.reg_setReg_of_ne hk _⟩
  exact (congrArg (·.getLsbD b) (s.reg_setReg_same x _)).trans BitVec.getLsbD_and

end Sys2Proof.Claims
end

section
/-! SUPPORT. Index register and memory: what a write to `I` and to memory leaves unchanged, the values written to `I` as numbers,
and what the accesses through `I` store and load, so that a store and a load at one address compose. -/

namespace Sys2Proof.Claims

open Sys2Proof.Machine

/-! ### What the updates leave unchanged -/

theorem OnlyChanges.setI {parts : List Part} {s t : State} (h : OnlyChanges parts s t) (hm : .index ∈ parts) (a : Word) :
    OnlyChanges parts s (t.setI a) := by
  intro p hp
  have hs : p.same s t := h p hp
  cases p
  case index => exact absurd hm hp
  all_goals exact hs

theorem OnlyChanges.setMem {parts : List Part} {s t : State} (h : OnlyChanges parts s t) (hm : .memory ∈ parts) (m : Memory) :
    OnlyChanges parts s (t.setMem m) := by
  intro p hp
  have hs : p.same s t := h p hp
  cases p
  case memory => exact absurd hm hp
  all_goals exact hs

theorem OnlyChanges.setRegs {parts : List Part} {s t : State} (h : OnlyChanges parts s t) (hm : .regs ∈ parts)
    (V : Vector Byte 16) : OnlyChanges parts s (t.setRegs V) := by
  intro p hp
  have hs : p.same s t := h p hp
  cases p
  case regs => exact absurd hm hp
  all_goals exact hs

theorem OnlyChanges.setIndexFlag {parts : List Part} {s t : State} (h : OnlyChanges parts s t) (hm : .regs ∈ parts) (sum : Nat) :
    OnlyChanges parts s (t.setIndexFlag sum) := by
  rw [State.setIndexFlag_eq_setRegs]
  exact h.setRegs hm _

theorem OnlyChanges.postIncrement {parts : List Part} {s t : State} (h : OnlyChanges parts s t) (hm : .index ∈ parts)
    (x : RegIx) : OnlyChanges parts s (t.postIncrement x) := by
  unfold State.postIncrement
  split
  · exact h.setI hm _
  · exact h

end Sys2Proof.Claims

namespace Sys2Proof.Machine

/-! ### The values written to `I` as numbers (R192, R194, R198) -/

theorem val_lowNibble (v : Byte) : (lowNibble v).val = v.toNat % 16 := by
  have hand : (v &&& 0x0F).toNat = v.toNat % 16 := (BitVec.toNat_and v 0x0F).trans (Nat.and_two_pow_sub_one_eq_mod v.toNat 4)
  rw [lowNibble, Fin.val_ofNat, hand, Nat.mod_mod]

theorem toNat_glyphAddress (s : State) (x : RegIx) : (glyphAddress s x).toNat = 5 * ((s.reg x).toNat % 16) := by
  simp only [glyphAddress, BitVec.toNat_ofNat, val_lowNibble, Config.fontBase]
  omega

theorem toNat_wrappedIndexSum (n : Nat) : (BitVec.ofNat 16 (n % Config.memSize)).toNat = n % 0x1000 := by
  simp only [Config.memSize, BitVec.toNat_ofNat]
  omega

/-- The increment does not wrap, because the access it follows stayed within memory (decision D15). -/
theorem State.toNat_postIncrement_I {s : State} {x : RegIx} (h : indexBase s + x.val < 0x1000)
    (hq : s.quirks.indexIncrementOnDumpLoad = true) : (s.postIncrement x).I.toNat = s.I.toNat + x.val + 1 := by
  have hI : s.I.toNat + x.val < 0x1000 := h
  rw [State.postIncrement_I, if_pos hq, BitVec.toNat_add, BitVec.toNat_ofNat]
  omega

theorem State.postIncrement_I_of_not_quirk {s : State} (hq : s.quirks.indexIncrementOnDumpLoad = false) (x : RegIx) :
    (s.postIncrement x).I = s.I := by
  rw [State.postIncrement_I, hq, if_neg Bool.false_ne_true]

/-! ### The updates under a quirk commute with the write before them, so they act on the state the instruction began in -/

theorem State.setIndexFlag_setI (s : State) (v : Word) (sum : Nat) :
    (s.setI v).setIndexFlag sum = (s.setIndexFlag sum).setI v := by
  unfold State.setIndexFlag
  rw [apply_ite (State.setI · v)]
  rfl

theorem State.postIncrement_setMem (s : State) (m : Memory) (x : RegIx) :
    (s.setMem m).postIncrement x = (s.postIncrement x).setMem m := by
  unfold State.postIncrement
  rw [apply_ite (State.setMem · m)]
  rfl

theorem State.postIncrement_setRegs (s : State) (V : Vector Byte 16) (x : RegIx) :
    (s.setRegs V).postIncrement x = (s.postIncrement x).setRegs V := by
  unfold State.postIncrement
  rw [apply_ite (State.setRegs · V)]
  rfl

/-! ### The flag of `Fx1E` (R193) -/

theorem flagByte_indexOverflow (n : Nat) : flagByte (indexOverflow n) = if 0xFFF < n then 1 else 0 := by
  simp [flagByte, indexOverflow]

theorem State.reg_setIndexFlag_VF {s : State} (hq : s.quirks.indexOverflowSetsVf = true) (sum : Nat) :
    (s.setIndexFlag sum).reg VF = if 0xFFF < sum then 1 else 0 := by
  rw [State.reg_setIndexFlag, if_pos ⟨hq, rfl⟩, flagByte_indexOverflow]

theorem State.reg_setIndexFlag_of_not {s : State} {k : RegIx}
    (h : ¬ (s.quirks.indexOverflowSetsVf = true ∧ k = VF)) (sum : Nat) : (s.setIndexFlag sum).reg k = s.reg k := by
  rw [State.reg_setIndexFlag, if_neg h]

/-! ### What is stored and loaded through `I` (R195, R196, R197) -/

/-- The byte at place k of a list stored from `a` on. -/
theorem Memory.read_writeList_of_getElem? {m : Memory} (hm : m.wf) (a : Nat) {bs : List Byte} {k : Nat} {v : Byte}
    (h : bs[k]? = some v) : (m.writeList a bs).read (a + k) = v := by
  rw [Memory.read_writeList hm.1, if_pos (Nat.le_add_right a k), Nat.add_sub_cancel_left, h, Option.getD_some]

/-- A store of a list of bytes leaves every address before and after it. -/
theorem Memory.read_writeList_of_outside {m : Memory} (hm : m.wf) {a b : Nat} {bs : List Byte}
    (h : b < a ∨ a + bs.length ≤ b) : (m.writeList a bs).read b = m.read b := by
  rw [Memory.read_writeList hm.1]
  split
  · have hb : bs[b - a]? = none := List.getElem?_eq_none (by omega)
    rw [hb, Option.getD_none]
  · rfl

/-- Register k after V0 to Vx were loaded from `a` on is the byte at `a + k`, for k up to x. -/
theorem State.reg_setRegs_fillRegs_readList {k x : RegIx} (h : k ≤ x) (s : State) (a : Nat) :
    (s.setRegs (fillRegs s.V 0 (s.mem.readList a (x.val + 1)))).reg k = s.byteAt (a + k.val) := by
  have hk : (s.mem.readList a (x.val + 1))[k.val]? = some (s.byteAt (a + k.val)) := by
    rw [Memory.getElem?_readList, if_pos (Nat.lt_succ_of_le h), State.byteAt]
  simp [State.reg, getElem_fillRegs, hk]

/-! ### The range check of the three accesses (R199) -/

theorem exec_ldBVx_of_gt {s : State} (h : Config.memSize < indexBase s + 3) (x : RegIx) :
    exec (.ldBVx x) s = .next (s.halt .memoryOutOfBounds) := by
  rw [exec_ldBVx, if_pos h]

theorem exec_ldBVx_of_le {s : State} (h : indexBase s + 3 ≤ Config.memSize) (x : RegIx) :
    exec (.ldBVx x) s = .next (s.setMem (s.mem.writeList (indexBase s) (bcdDigits (s.reg x)))).advance := by
  rw [exec_ldBVx, if_neg (Nat.not_lt.mpr h)]

theorem exec_ldMemVx_of_gt {s : State} {x : RegIx} (h : Config.memSize < indexBase s + (x.val + 1)) :
    exec (.ldMemVx x) s = .next (s.halt .memoryOutOfBounds) := by
  rw [exec_ldMemVx, if_pos h]

theorem exec_ldVxMem_of_gt {s : State} {x : RegIx} (h : Config.memSize < indexBase s + (x.val + 1)) :
    exec (.ldVxMem x) s = .next (s.halt .memoryOutOfBounds) := by
  rw [exec_ldVxMem, if_pos h]

theorem exec_ldVxMem_of_le {s : State} {x : RegIx} (h : indexBase s + (x.val + 1) ≤ Config.memSize) :
    exec (.ldVxMem x) s
      = .next ((s.setRegs (fillRegs s.V 0 (s.mem.readList (indexBase s) (x.val + 1)))).postIncrement x).advance := by
  rw [exec_ldVxMem, if_neg (Nat.not_lt.mpr h)]

end Sys2Proof.Machine

namespace Sys2Proof.Claims

open Sys2Proof.Machine

/-- Settles O27: the instruction is a write to `I`. -/
theorem setIndex : Obligations.SetIndex :=
  fun s nnn => ⟨_, exec_ldIAddr nnn s, rfl, toNat_addrWord nnn,
    ((onlyChanges_refl _ s).setI (List.mem_singleton_self _) _).setPc _⟩

/-- Settles O28: the instruction is a write to `I`, and the mask of the digit is its remainder modulo 16. -/
theorem glyphAddress : Obligations.GlyphAddress :=
  fun s x => ⟨_, exec_ldFVx x s, rfl, toNat_glyphAddress s x,
    ((onlyChanges_refl _ s).setI (List.mem_singleton_self _) _).setPc _⟩

/-- Settles O29: `I` is written from the full sum, and VF, under the quirk, from whether that sum left the address space. -/
theorem addToIndex : Obligations.AddToIndex := by
  intro s x
  have e := exec_addIVx x s
  rw [State.setIndexFlag_setI] at e
  exact ⟨_, e, by simp, (((onlyChanges_refl _ s).setIndexFlag (by simp) _).setI (by simp) _).setPc _,
    toNat_wrappedIndexSum _,
    fun hq h => (State.reg_setIndexFlag_VF hq _).trans (if_pos h),
    fun hq h => (State.reg_setIndexFlag_VF hq _).trans (if_neg (Nat.not_lt.mpr h)),
    fun hq => State.reg_setIndexFlag_of_not (fun ⟨h, _⟩ => Bool.false_ne_true (hq.symm.trans h)) _,
    fun _ hk => State.reg_setIndexFlag_of_not (fun ⟨_, h⟩ => hk h) _⟩

/-- Settles O30: by the range check; each digit is below 256, so its byte holds it. -/
theorem bcdStore : Obligations.BcdStore := by
  intro s x hm
  refine ⟨fun h => exec_ldBVx_of_gt (Nat.lt_succ_of_le h) x, fun h => ?_⟩
  have hlt := (s.reg x).isLt
  have digit {k n : Nat} (hk : (bcdDigits (s.reg x))[k]? = some (BitVec.ofNat 8 n)) (hn : n < 256) :
      ((s.mem.writeList (indexBase s) (bcdDigits (s.reg x))).read (indexBase s + k)).toNat = n := by
    rw [Memory.read_writeList_of_getElem? hm _ hk, BitVec.toNat_ofNat, Nat.mod_eq_of_lt hn]
  exact ⟨_, exec_ldBVx_of_le h x, rfl, ((onlyChanges_refl _ s).setMem (List.mem_singleton_self _) _).setPc _,
    digit (k := 0) rfl (by omega), digit (k := 1) rfl (by omega), digit (k := 2) rfl (by omega),
    fun _ ha => Memory.read_writeList_of_outside hm ha⟩

/-- Settles O31: by the range check; in range the stored bytes are the registers, and `I` moves past them under the quirk. -/
theorem registerStore : Obligations.RegisterStore := by
  intro s x hm
  refine ⟨fun h => exec_ldMemVx_of_gt (Nat.lt_succ_of_le h), fun h => ?_⟩
  have e := exec_ldMemVx_of_le h
  rw [State.postIncrement_setMem] at e
  exact ⟨_, e, by simp, (((onlyChanges_refl _ s).postIncrement (by simp) x).setMem (by simp) _).setPc _,
    fun _ hk => read_writeList_regsUpTo hm s hk _,
    fun _ ha => Memory.read_writeList_of_outside hm (by rwa [State.length_regsUpTo]),
    State.toNat_postIncrement_I h, fun hq => State.postIncrement_I_of_not_quirk hq x⟩

/-- Settles O32: by the range check; in range the registers are the bytes read, and `I` moves past them under the quirk. -/
theorem registerLoad : Obligations.RegisterLoad := by
  intro s x
  refine ⟨fun h => exec_ldVxMem_of_gt (Nat.lt_succ_of_le h), fun h => ?_⟩
  have e := exec_ldVxMem_of_le h
  rw [State.postIncrement_setRegs] at e
  exact ⟨_, e, by simp, (((onlyChanges_refl _ s).postIncrement (by simp) x).setRegs (by simp) _).setPc _,
    fun _ hk => State.reg_setRegs_fillRegs_readList hk s _,
    fun _ hk => State.reg_setRegs_fillRegs_of_le (s := s) (by simpa using hk),
    State.toNat_postIncrement_I h, fun hq => State.postIncrement_I_of_not_quirk hq x⟩

/-- Settles O33: what the load reads at the old `I` and on is what the store put there. -/
theorem storeLoadRoundTrip : Obligations.StoreLoadRoundTrip := by
  intro s x hm h
  obtain ⟨t, et, -, -, stored, -⟩ := (registerStore s x hm).2 h
  refine ⟨t, et, fun u hmem hI => ?_⟩
  have hbase : indexBase u = indexBase s := congrArg BitVec.toNat hI
  obtain ⟨v, ev, -, -, loaded, -⟩ := (registerLoad u x).2 (hbase ▸ h)
  refine ⟨v, ev, fun k hk => ?_⟩
  calc v.reg k = u.byteAt (indexBase s + k.val) := hbase ▸ loaded k hk
    _ = t.byteAt (indexBase s + k.val) := State.byteAt_congr hmem _
    _ = s.reg k := stored k hk

end Sys2Proof.Claims
end

section
/-! SUPPORT. The display: what a write to it leaves unchanged, and what `Dxyn` leaves in the display and in VF, in terms of the
pixels its sprite draws; two draws then compose, because the first leaves all the sprite depends on. -/

namespace Sys2Proof.Claims

open Sys2Proof.Machine

/-! ### What the updates leave unchanged -/

theorem OnlyChanges.setDisp {parts : List Part} {s t : State} (h : OnlyChanges parts s t) (hm : .display ∈ parts) (d : Display) :
    OnlyChanges parts s (t.setDisp d) := by
  intro p hp
  have hs : p.same s t := h p hp
  cases p
  case display => exact absurd hm hp
  all_goals exact hs

theorem onlyChanges_afterDraw (s : State) (x y : RegIx) (rows : List Byte) :
    OnlyChanges [.regs, .display] s (s.afterDraw x y rows) :=
  (((onlyChanges_refl _ s).setDisp (by simp) _).setReg (by simp) VF _).setPc _

end Sys2Proof.Claims

namespace Sys2Proof.Machine

open Sys2Proof.Claims

variable {s t : State} {x y : RegIx} {n : Height} {u : Fin 64} {v : Fin 32}

/-- The bytes of the sprite of `Dxyn` (R212). -/
def State.spriteRows (s : State) (n : Height) : List Byte := s.mem.readList (indexBase s) n.val

/-! ### The range check of the sprite (R212, R216) -/

theorem exec_drwVxVyN_of_gt (h : 0 < n.val ∧ 0x1000 ≤ indexBase s + n.val - 1) (x y : RegIx) :
    exec (.drwVxVyN x y n) s = .next (s.halt .memoryOutOfBounds) := by
  have hgt : 0 < n.val ∧ Config.memSize < indexBase s + n.val := ⟨h.1, by simp only [Config.memSize]; omega⟩
  rw [exec_drwVxVyN, if_pos hgt]

theorem exec_drwVxVyN_of_fits (h : n.val = 0 ∨ indexBase s + n.val - 1 < 0x1000) (x y : RegIx) :
    exec (.drwVxVyN x y n) s = .next (s.afterDraw x y (s.spriteRows n)) := by
  have hfits : ¬ (0 < n.val ∧ Config.memSize < indexBase s + n.val) := by simp only [Config.memSize]; omega
  rw [exec_drwVxVyN, if_neg hfits, State.spriteRows]

/-! ### The pixels of the sprite -/

/-- The pixels the model goes through are those the sprite draws (R212, R213, R215, R218). -/
theorem mem_spriteCells_iff_drawn :
    (u, v) ∈ spriteCells s.quirks.spriteEdge (startColumn s x) (startRow s y) (s.spriteRows n) ↔ Drawn s x y n u v := by
  simp only [mem_spriteCells, State.spriteRows, Memory.getElem?_readList, Option.ite_none_right_eq_some, Option.some.injEq]
  constructor
  · rintro ⟨r, _, c, ⟨hr, rfl⟩, hc, hbit, hp⟩
    exact ⟨r, c, hr, hc, hbit, (placePixel_eq_some ..).mp hp⟩
  · rintro ⟨r, c, hr, hc, hbit, hp⟩
    exact ⟨r, _, c, ⟨hr, rfl⟩, hc, hbit, (placePixel_eq_some ..).mpr hp⟩

/-- What a sprite draws depends on its bytes, `I`, the edge quirk and the two coordinate registers alone. -/
theorem drawn_congr (hbytes : ∀ a, t.byteAt a = s.byteAt a) (hI : t.I = s.I) (hq : t.quirks = s.quirks)
    (hx : t.reg x = s.reg x) (hy : t.reg y = s.reg y) : Drawn t x y n u v ↔ Drawn s x y n u v := by
  simp only [Drawn, indexBase, hbytes, hI, hq, hx, hy]

/-! ### What a draw leaves in the display and in VF (R212, R214) -/

/-- A sprite of `Dxyn` has fewer rows than the display, so no two of its pixels meet. -/
theorem State.length_spriteRows_le (s : State) (n : Height) : (s.spriteRows n).length ≤ 32 := by
  rw [spriteRows, Memory.length_readList]
  omega

theorem State.pixel_afterDraw_of_drawn (h : Drawn s x y n u v) :
    (s.afterDraw x y (s.spriteRows n)).pixel u v = !s.pixel u v :=
  ((drawSprite_spec _ _ _ _ _ (s.length_spriteRows_le n)).1 u v).trans (if_pos (mem_spriteCells_iff_drawn.mpr h))

theorem State.pixel_afterDraw_of_not_drawn (h : ¬ Drawn s x y n u v) :
    (s.afterDraw x y (s.spriteRows n)).pixel u v = s.pixel u v :=
  ((drawSprite_spec _ _ _ _ _ (s.length_spriteRows_le n)).1 u v).trans (if_neg (mt mem_spriteCells_iff_drawn.mp h))

/-- VF after a draw is the test of the sprite's pixels for one that was set. -/
theorem State.reg_VF_afterDraw (s : State) (x y : RegIx) (n : Height) :
    (s.afterDraw x y (s.spriteRows n)).reg VF
      = flagByte ((spriteCells s.quirks.spriteEdge (startColumn s x) (startRow s y) (s.spriteRows n)).any
          fun c => s.pixel c.1 c.2) :=
  (State.reg_setReg_same _ VF _).trans
    (congrArg flagByte (drawSprite_spec _ _ _ _ _ (s.length_spriteRows_le n)).2)

theorem State.reg_VF_afterDraw_of_collision (h : ∃ u v, Drawn s x y n u v ∧ s.pixel u v = true) :
    (s.afterDraw x y (s.spriteRows n)).reg VF = 1 := by
  obtain ⟨u, v, hdrawn, hset⟩ := h
  rw [reg_VF_afterDraw, List.any_eq_true.mpr ⟨(u, v), mem_spriteCells_iff_drawn.mpr hdrawn, hset⟩]
  rfl

theorem State.reg_VF_afterDraw_of_clear (h : ∀ u v, Drawn s x y n u v → s.pixel u v = false) :
    (s.afterDraw x y (s.spriteRows n)).reg VF = 0 := by
  have hclear : ∀ c ∈ spriteCells s.quirks.spriteEdge (startColumn s x) (startRow s y) (s.spriteRows n),
      ¬ s.pixel c.1 c.2 = true :=
    fun c hc => Bool.eq_false_iff.mp (h c.1 c.2 (mem_spriteCells_iff_drawn.mp hc))
  rw [reg_VF_afterDraw, List.any_eq_false.mpr hclear]
  rfl

theorem State.reg_afterDraw_of_ne {k : RegIx} (hk : k ≠ VF) (s : State) (x y : RegIx) (rows : List Byte) :
    (s.afterDraw x y rows).reg k = s.reg k :=
  State.reg_setReg_of_ne hk _

end Sys2Proof.Machine

namespace Sys2Proof.Claims

open Sys2Proof.Machine

/-- Settles O36: the instruction replaces the display by the clear one and writes no register. -/
theorem clearDisplay : Obligations.ClearDisplay :=
  fun s => ⟨_, exec_cls s, rfl, ((onlyChanges_refl _ s).setDisp (List.mem_singleton_self _) _).setPc _, pixelOf_clearDisplay⟩

/-- Settles O37: by the range check; in range the pixels drawn are those of the sprite, each drawn once. -/
theorem drawSprite : Obligations.DrawSprite := by
  refine fun s x y n => ⟨fun h => exec_drwVxVyN_of_gt h x y, fun h => ?_⟩
  exact ⟨_, exec_drwVxVyN_of_fits h x y, rfl, onlyChanges_afterDraw s x y _,
    fun _ _ => State.pixel_afterDraw_of_drawn, fun _ _ => State.pixel_afterDraw_of_not_drawn,
    State.reg_VF_afterDraw_of_collision, State.reg_VF_afterDraw_of_clear,
    fun _ hk => State.reg_afterDraw_of_ne hk s x y _⟩

/-- Settles O38: the first draw keeps memory, `I`, the quirks and, as neither is VF, the two coordinate registers, so the second
draws the same pixels and inverts each of them back. -/
theorem drawTwiceRestores : Obligations.DrawTwiceRestores := by
  intro s x y n hx hy h
  obtain ⟨t, et, -, keeps, inverted, left, -, -, regs⟩ := (drawSprite s x y n).2 h
  have hI : t.I = s.I := keeps .index (by simp)
  have same (a : Fin 64) (b : Fin 32) : Drawn t x y n a b ↔ Drawn s x y n a b :=
    drawn_congr (keeps .memory (by simp)) hI (keeps .quirks (by simp)) (regs x hx) (regs y hy)
  have hbase : indexBase t = indexBase s := congrArg BitVec.toNat hI
  obtain ⟨u, eu, -, -, inverted', left', collision, clear, -⟩ := (drawSprite t x y n).2 (hbase ▸ h)
  refine ⟨t, u, et, eu, fun a b => ?_, fun hVF => ?_, fun ⟨a, b, hd, hp⟩ => ?_⟩
  · by_cases hd : Drawn s x y n a b
    · rw [inverted' a b ((same a b).mpr hd), inverted a b hd, Bool.not_not]
    · rw [left' a b (mt (same a b).mp hd), left a b hd]
  · by_contra hnone
    have hset (a : Fin 64) (b : Fin 32) (hd : Drawn s x y n a b) : s.pixel a b = true :=
      Bool.eq_true_of_not_eq_false fun hp => hnone ⟨a, b, hd, hp⟩
    have hzero : u.reg VF = 0 := clear fun a b hd => by
      rw [inverted a b ((same a b).mp hd), hset a b ((same a b).mp hd), Bool.not_true]
    exact absurd (hVF.symm.trans hzero) (by decide)
  · exact collision ⟨a, b, (same a b).mpr hd, by rw [inverted a b hd, hp, Bool.not_false]⟩

end Sys2Proof.Claims
end

section
/-! SUPPORT. Timers and keys: what a write to a timer and to the run state leaves unchanged, the key a register names, and the wait for
a key: any number of cycles keep it, and a press edge ends it. -/

namespace Sys2Proof.Claims

open Sys2Proof.Machine

/-! ### What the updates leave unchanged -/

theorem OnlyChanges.setDT {parts : List Part} {s t : State} (h : OnlyChanges parts s t) (hm : .delay ∈ parts) (v : Byte) :
    OnlyChanges parts s (t.setDT v) := by
  intro p hp
  have hs : p.same s t := h p hp
  cases p
  case delay => exact absurd hm hp
  all_goals exact hs

theorem OnlyChanges.setST {parts : List Part} {s t : State} (h : OnlyChanges parts s t) (hm : .sound ∈ parts) (v : Byte) :
    OnlyChanges parts s (t.setST v) := by
  intro p hp
  have hs : p.same s t := h p hp
  cases p
  case sound => exact absurd hm hp
  all_goals exact hs

theorem OnlyChanges.setRun {parts : List Part} {s t : State} (h : OnlyChanges parts s t) (hm : .run ∈ parts) (r : RunState) :
    OnlyChanges parts s (t.setRun r) := by
  intro p hp
  have hs : p.same s t := h p hp
  cases p
  case run => exact absurd hm hp
  all_goals exact hs

end Sys2Proof.Claims

namespace Sys2Proof.Machine

/-! ### Key numbers and the sound output (R230, R261, R263) -/

/-- The key a register names is that of its low nibble (decision D20). -/
theorem keyNumber_eq {s : State} {x : RegIx} {k : KeyIx} (h : k.val = (s.reg x).toNat % 16) : keyNumber s x = k :=
  Fin.ext ((val_lowNibble _).trans h.symm)

theorem toNat_keyByte (k : KeyIx) : (keyByte k).toNat = k.val :=
  (BitVec.toNat_ofNat _ _).trans (Nat.mod_eq_of_lt (k.isLt.trans (by decide)))

theorem State.soundActive_iff (s : State) : s.soundActive = true ↔ s.ST ≠ 0 := bne_iff_ne

/-! ### The wait (R136, R234, R262, R263) -/

/-- Cycles keep a waiting core as it is (R136, decision D26). -/
theorem runCycles_of_waiting {s : State} {x : RegIx} (h : s.run = .waitingForKey x) (n : Nat) : runCycles n s = .next (s, .ok) := by
  induction n with
  | zero => rfl
  | succ n ih => rw [runCycles_succ_of_ok (step_waiting h) (State.stepReturn_of_waiting h), ih]

/-- A press of a released key writes its number to the target of the wait and ends the wait (R263, decision D27). -/
theorem setKey_of_waiting {s : State} {x : RegIx} {k : KeyIx} (h : s.run = .waitingForKey x) (hk : s.keyPressed k = false) :
    setKey k true s = ((s.setKeyState k true).setReg x (keyByte k)).setRun .running := by
  have hedge : pressEdge s k true = true := by rw [pressEdge, hk]; rfl
  simp only [setKey, if_pos hedge, State.wake, State.setKeyState_run, h]

end Sys2Proof.Machine

namespace Sys2Proof.Claims

open Sys2Proof.Machine

/-- Settles O42: `Fx0A` leaves the core waiting with the same keys, so cycles keep that state and the press is an edge. -/
theorem waitEndsOnPressEdge : Obligations.WaitEndsOnPressEdge := by
  intro s x k n hk
  have hwait : ((s.setRun (.waitingForKey x)).advance).run = .waitingForKey x := rfl
  refine ⟨_, _, exec_ldVxK x s, runCycles_of_waiting hwait n, rfl, ?_⟩
  rw [setKey_of_waiting hwait hk]
  exact ⟨rfl, rfl, (congrArg BitVec.toNat (State.reg_setReg_same _ x _)).trans (toNat_keyByte k)⟩

/-- Settles O19: both end in a skip on the level of the key the register names. -/
theorem keySkips : Obligations.KeySkips := by
  intro s x k hk
  obtain rfl := keyNumber_eq hk
  exact ⟨exec_of_skipIf (exec_skpVx x s) id id,
    exec_of_skipIf (exec_sknpVx x s) (Bool.not_eq_true' _).mpr (Bool.not_eq_false' _).mpr⟩

/-- Settles O39: each of the three is one write, of a register, of the delay timer or of the sound timer. -/
theorem timerInstructions : Obligations.TimerInstructions := by
  refine fun s x => ⟨exec_of_setReg (exec_ldVxDT x s), ?_, ?_⟩
  · exact ⟨_, exec_ldDTVx x s, rfl, ((onlyChanges_refl _ s).setDT (List.mem_singleton_self _) _).setPc _, rfl⟩
  · exact ⟨_, exec_ldSTVx x s, rfl, ((onlyChanges_refl _ s).setST (List.mem_singleton_self _) _).setPc _, rfl,
      State.soundActive_iff _⟩

/-- Settles O40: the instruction writes the run state, and `pc` as every instruction that falls through does. -/
theorem waitForKeyInstruction : Obligations.WaitForKeyInstruction :=
  fun s x => ⟨_, exec_ldVxK x s, rfl, rfl, ((onlyChanges_refl _ s).setRun (List.mem_singleton_self _) _).setPc _⟩

end Sys2Proof.Claims
end

section
/-! SUPPORT. The commands that are no step: what a tick, a key input and the sound read do to the state, and a sequence of ticks. -/

namespace Sys2Proof.Claims

open Sys2Proof.Machine

/-! ### What the updates leave unchanged -/

theorem OnlyChanges.setKeyState {parts : List Part} {s t : State} (h : OnlyChanges parts s t) (hm : .keys ∈ parts) (k : KeyIx)
    (p : Bool) : OnlyChanges parts s (t.setKeyState k p) := by
  intro q hq
  have hs : q.same s t := h q hq
  cases q
  case keys => exact absurd hm hq
  all_goals exact hs

/-- What each of two changes leaves unchanged, the two in turn leave unchanged. -/
theorem OnlyChanges.trans {parts : List Part} {s t u : State} (h : OnlyChanges parts s t) (h' : OnlyChanges parts t u) :
    OnlyChanges parts s u := by
  intro p hp
  have hst : p.same s t := h p hp
  have htu : p.same t u := h' p hp
  cases p
  case display => exact fun x y => (htu x y).trans (hst x y)
  case regs | keys | memory => exact fun k => (htu k).trans (hst k)
  all_goals exact htu.trans hst

theorem OnlyChanges.tickTimers {parts : List Part} {s t : State} (h : OnlyChanges parts s t) (hd : .delay ∈ parts)
    (hs : .sound ∈ parts) : OnlyChanges parts s (tickTimers t) :=
  (h.setDT hd _).setST hs _

end Sys2Proof.Claims

namespace Sys2Proof.Machine

open Sys2Proof.Claims

/-! ### The timers (R259, R261) -/

theorem tickTimer_of_eq_zero {t : Byte} (h : t = 0) : tickTimer t = 0 := if_pos h

theorem toNat_tickTimer (t : Byte) : (tickTimer t).toNat = t.toNat - 1 := by
  unfold tickTimer
  split
  next h => rw [h]; rfl
  next => bv_omega

theorem toNat_tickTimer_add_one {t : Byte} (h : t ≠ 0) : (tickTimer t).toNat + 1 = t.toNat := by
  rw [toNat_tickTimer]
  bv_omega

/-- A tick and then n more lower a timer by n + 1. -/
theorem toNat_tickTimer_sub (t : Byte) (n : Nat) : (tickTimer t).toNat - n = t.toNat - (n + 1) := by
  rw [toNat_tickTimer, Nat.sub_sub, Nat.add_comm]

theorem State.soundActive_eq (s : State) : s.soundActive = decide (s.ST.toNat ≠ 0) := by
  have hnat : s.ST.toNat ≠ 0 ↔ s.ST ≠ 0 := by bv_omega
  rw [Bool.eq_iff_iff, s.soundActive_iff, decide_eq_true_iff, hnat]

/-- A sequence of commands is its first command and then the rest (R122). -/
theorem commands_cons {c : Command} {cs : List Command} {s t u : State} {r : Return} {rs : List Return}
    (h : command c s = .next (t, r)) (h' : commands cs t = .next (u, rs)) : commands (c :: cs) s = .next (u, r :: rs) := by
  simp only [commands, h, h']

/-! ### The key input (R262, R263) -/

/-- A key input that is no press edge, or that comes while the core does not wait, only records the key (decision D27). -/
theorem setKey_of_no_wake {k : KeyIx} {p : Bool} {s : State}
    (h : p = false ∨ s.keyPressed k = true ∨ ∀ x, s.run ≠ .waitingForKey x) : setKey k p s = s.setKeyState k p := by
  obtain rfl | hk | hw := h
  · rfl
  · simp [setKey, pressEdge, hk]
  · obtain e | ⟨x, hx, -⟩ := setKey_cases k p s
    · exact e
    · exact absurd hx (hw x)

theorem setKey_pc (k : KeyIx) (p : Bool) (s : State) : (setKey k p s).pc = s.pc := by
  obtain e | ⟨x, -, e⟩ := setKey_cases k p s <;> rw [e] <;> rfl

theorem onlyChanges_setKey (k : KeyIx) (p : Bool) (s : State) : OnlyChanges [.regs, .keys, .run] s (setKey k p s) := by
  have hkey : OnlyChanges [.regs, .keys, .run] s (s.setKeyState k p) := (onlyChanges_refl _ s).setKeyState (by simp) k p
  obtain e | ⟨x, -, e⟩ := setKey_cases k p s <;> rw [e]
  · exact hkey
  · exact (hkey.setReg (by simp) x _).setRun (by simp) _

/-- A wake-up leaves the keys to the input that caused it. -/
theorem keyPressed_setKey (k : KeyIx) (p : Bool) (s : State) (j : KeyIx) :
    (setKey k p s).keyPressed j = if j = k then p else s.keyPressed j := by
  obtain e | ⟨x, -, e⟩ := setKey_cases k p s <;> rw [e] <;> exact State.keyPressed_setKeyState s k j p

end Sys2Proof.Machine

namespace Sys2Proof.Claims

open Sys2Proof.Machine

/-- Settles O44: by induction on the number of ticks, from every state. -/
theorem timerCountdown : Obligations.TimerCountdown := by
  intro n
  induction n with
  | zero => exact fun s => ⟨s, rfl, rfl, rfl, rfl, onlyChanges_refl _ s⟩
  | succ n ih =>
    intro s
    obtain ⟨t, e, hpc, hDT, hST, keeps⟩ := ih (tickTimers s)
    exact ⟨t, commands_cons rfl e, hpc, hDT.trans (toNat_tickTimer_sub _ n), hST.trans (toNat_tickTimer_sub _ n),
      ((onlyChanges_refl _ s).tickTimers (by simp) (by simp)).trans keeps⟩

/-- Settles O43: each timer is replaced by its own tick. -/
theorem timerTick : Obligations.TimerTick :=
  fun s => ⟨tickTimers s, rfl, rfl, (onlyChanges_refl _ s).tickTimers (by simp) (by simp), tickTimer_of_eq_zero,
    toNat_tickTimer_add_one, tickTimer_of_eq_zero, toNat_tickTimer_add_one⟩

/-- Settles O45: a byte is 0 exactly when its number is. -/
theorem soundOutput : Obligations.SoundOutput := by
  intro s
  rw [← s.soundActive_eq]
  rfl

/-- Settles O41: by whether the input ends a wait; if it does, the core waits, the key was released and is pressed. -/
theorem keyInput : Obligations.KeyInput := by
  refine fun s k p => ⟨_, rfl, setKey_pc k p s, onlyChanges_setKey k p s, ?_, fun j hj => ?_, fun x hx hp hk => ?_, fun h => ?_⟩
  · rw [keyPressed_setKey, if_pos rfl]
  · rw [keyPressed_setKey, if_neg hj]
  · rw [hp, setKey_of_waiting hx hk]
    exact ⟨rfl, (congrArg BitVec.toNat (State.reg_setReg_same _ x _)).trans (toNat_keyByte k),
      fun j hj => State.reg_setReg_of_ne hj _⟩
  · rw [setKey_of_no_wake h]
    exact ⟨rfl, fun _ => rfl⟩

end Sys2Proof.Claims
end

section
/-! SUPPORT. Halts: what raises one, command by command, and what a halted core keeps until a load. -/

namespace Sys2Proof.Machine

open Sys2Proof.Claims

/-! ### A step of a running core (R251) -/

/-- A running core executes the instruction the word at a legal `pc` stands for (R129). -/
theorem step_of_decodeWord {s : State} {i : Instr} (hr : s.run = .running) (hp : ¬ IllegalPc s.pc)
    (hi : decodeWord s.wordAtPc = some i) : step s = exec i s :=
  step_of_decode hr hp ((decode_pair_eq_ok_iff _ _ i).mpr hi)

/-- Where a cause is present, the step is the halt it names. -/
theorem step_of_haltCause {s : State} {r : HaltReason} (hr : s.run = .running) (c : StepHaltCause s r) :
    step s = .next (s.halt r) := by
  cases c with
  | illegalPc hp => exact step_of_illegalPc hr hp
  | unknownWord hp hw => exact step_of_unknownWord hr hp ((decodeWord_eq_none_iff _).mpr hw)
  | emptyStack hp hi hs => exact (step_of_decodeWord hr hp hi).trans (exec_ret_of_nil hs)
  | fullStack nnn hp hi hs => exact (step_of_decodeWord hr hp hi).trans (exec_callAddr_of_ge hs.ge nnn)
  | draw x y n hp hi hn hI => exact (step_of_decodeWord hr hp hi).trans (exec_drwVxVyN_of_gt ⟨hn, hI⟩ x y)
  | bcd x hp hi hI => exact (step_of_decodeWord hr hp hi).trans (exec_ldBVx_of_gt (Nat.lt_succ_of_le hI) x)
  | store x hp hi hI => exact (step_of_decodeWord hr hp hi).trans (exec_ldMemVx_of_gt (Nat.lt_succ_of_le hI))
  | load x hp hi hI => exact (step_of_decodeWord hr hp hi).trans (exec_ldVxMem_of_gt (Nat.lt_succ_of_le hI))

/-- An instruction that halts under a condition, and keeps the run state otherwise, leaves a running core halted only under that
condition, with its reason. -/
theorem halted_of_exec_eq_ite {P : Prop} [Decidable P] {i : Instr} {s t u : State} {r r' : HaltReason}
    (h : exec i s = .next (if P then s.halt r' else u)) (hu : u.run = s.run) (hr : s.run = .running) (e : exec i s = .next t)
    (ht : t.run = .halted r) : P ∧ r' = r := by
  rw [h] at e
  split at e <;> cases e
  next hP =>
    cases ht
    exact ⟨hP, rfl⟩
  next => cases hr.symm.trans (hu.symm.trans ht)

/-- An instruction that leaves a running core halted is one of the six that can, in the case in which it does. -/
theorem haltCause_of_exec {s t : State} {i : Instr} {r : HaltReason} (hlen : s.stack.length ≤ 16) (hr : s.run = .running)
    (hp : ¬ IllegalPc s.pc) (hi : decodeWord s.wordAtPc = some i) (e : exec i s = .next t) (ht : t.run = .halted r) :
    StepHaltCause s r := by
  cases i
  case ret =>
    obtain hs | ⟨rest, top, hs⟩ := s.stack.eq_nil_or_concat'
    · cases (exec_ret_of_nil hs).symm.trans e
      cases ht
      exact .emptyStack hp hi hs
    · cases (exec_ret_of_append hs).symm.trans e
      cases hr.symm.trans ht
  case callAddr nnn =>
    obtain ⟨hfull, rfl⟩ := halted_of_exec_eq_ite (exec_callAddr nnn s) rfl hr e ht
    exact .fullStack nnn hp hi (Nat.le_antisymm hlen hfull)
  case drwVxVyN x y n =>
    obtain ⟨⟨hn, hI⟩, rfl⟩ := halted_of_exec_eq_ite (exec_drwVxVyN x y n s) rfl hr e ht
    exact .draw x y n hp hi hn (Nat.le_sub_one_of_lt hI)
  case ldBVx x =>
    obtain ⟨hI, rfl⟩ := halted_of_exec_eq_ite (exec_ldBVx x s) rfl hr e ht
    exact .bcd x hp hi (Nat.le_of_lt_succ hI)
  case ldMemVx x =>
    obtain ⟨hI, rfl⟩ := halted_of_exec_eq_ite (exec_ldMemVx x s) (by simp) hr e ht
    exact .store x hp hi (Nat.le_of_lt_succ hI)
  case ldVxMem x =>
    obtain ⟨hI, rfl⟩ := halted_of_exec_eq_ite (exec_ldVxMem x s) (by simp) hr e ht
    exact .load x hp hi (Nat.le_of_lt_succ hI)
  all_goals cases e
  case ldVxK => cases ht
  case orVxVy | andVxVy | xorVxVy | addIVx => simp [hr] at ht
  all_goals cases hr.symm.trans ht

/-- A step leaves a running core halted exactly when a cause is present: the check of `pc`, the decoder and the instruction raise
a halt only there. -/
theorem step_halts_iff {s t : State} {r : HaltReason} (hlen : s.stack.length ≤ 16) (hr : s.run = .running)
    (e : step s = .next t) : t.run = .halted r ↔ StepHaltCause s r := by
  constructor
  · intro ht
    obtain ⟨hp, e'⟩ | ⟨hp, hd, e'⟩ | ⟨i, hp, hi, e'⟩ := step_running hr
    · cases e'.symm.trans e
      cases ht
      exact .illegalPc ((illegalPc_iff _).mpr hp)
    · cases e'.symm.trans e
      cases ht
      exact .unknownWord (by simp [illegalPc_iff, hp]) ((decodeWord_eq_none_iff _).mp hd)
    · exact haltCause_of_exec hlen hr (by simp [illegalPc_iff, hp]) hi (e'.symm.trans e) ht
  · intro c
    cases (step_of_haltCause hr c).symm.trans e
    rfl

/-! ### The other commands -/

theorem step_of_not_running {s : State} (h : s.run ≠ .running) : step s = .next s := by
  cases hr : s.run with
  | running => exact absurd hr h
  | waitingForKey x => exact step_waiting hr
  | halted r => exact step_halted hr

/-- If the core is halted in `t`, it was halted in `s` already, or a step of a running core led to `t`. -/
def HaltedBeforeOrByStep (s t : State) : Prop :=
  ∀ r, t.run = .halted r → s.run = .halted r ∨ ∃ u, u.run = .running ∧ step u = .next t

/-- A step of a running core is the step that halted it; any other step changes nothing. -/
theorem HaltedBeforeOrByStep.step {s t u : State} (h : HaltedBeforeOrByStep s t) (e : step t = .next u) :
    HaltedBeforeOrByStep s u := by
  intro r hu
  by_cases hr : t.run = .running
  · exact .inr ⟨t, hr, e⟩
  · cases (step_of_not_running hr).symm.trans e
    exact h r hu

theorem haltedBeforeOrByStep_of_runCycles {n : Nat} {s t : State} {ret : Return} (e : runCycles n s = .next (t, ret)) :
    HaltedBeforeOrByStep s t :=
  runCycles_keeps (fun _ _ => HaltedBeforeOrByStep.step) (fun _ => .inl) e

theorem load_halts_iff (rom : List Byte) (s : State) (r : HaltReason) :
    (load rom s).1.run = .halted r ↔ r = .romTooLarge ∧ 0x1000 < 0x200 + rom.length := by
  obtain ⟨hfit, e⟩ | ⟨hlarge, e⟩ := load_cases rom s <;> rw [e]
  · exact ⟨nofun, fun ⟨_, hlarge⟩ => absurd hfit (Nat.not_le_of_lt hlarge)⟩
  · exact ⟨fun h => ⟨(RunState.halted.inj h).symm, hlarge⟩, fun ⟨h, _⟩ => h ▸ rfl⟩

/-- A key input ends at most a wait. -/
theorem setKey_halted_iff (k : KeyIx) (p : Bool) (s : State) (r : HaltReason) :
    (setKey k p s).run = .halted r ↔ s.run = .halted r := by
  obtain e | ⟨x, hx, e⟩ := setKey_cases k p s <;> rw [e]
  · rfl
  · simp [hx]

/-! ### A halted core until a load (R137, R254) -/

/-- Cycles of a halted core change nothing, whether none runs or the first one fails (decisions D7 and D26). -/
theorem runCycles_of_halted {s : State} {r : HaltReason} (h : s.run = .halted r) (n : Nat) :
    ∃ ret, runCycles n s = .next (s, ret) := by
  cases n with
  | zero => exact ⟨.ok, rfl⟩
  | succ n => exact ⟨.fail r, runCycles_succ_of_fail (step_halted h) (State.stepReturn_of_halted h) n⟩

/-- What a command but a load does to a halted core. The run state is among the parts that are kept. -/
theorem command_of_halted {c : Command} {s : State} {r : HaltReason} (h : s.run = .halted r) (hc : ∀ rom, c ≠ .load rom) :
    ∃ t ret, command c s = .next (t, ret) ∧ t.pc = s.pc ∧ OnlyChanges [.delay, .sound, .keys] s t := by
  have same : OnlyChanges [.delay, .sound, .keys] s s := onlyChanges_refl _ s
  cases c with
  | load rom => exact absurd rfl (hc rom)
  | step => exact ⟨s, _, stepCommand_of_step (step_halted h), rfl, same⟩
  | runCycles n =>
    obtain ⟨ret, e⟩ := runCycles_of_halted h n
    exact ⟨s, ret, e, rfl, same⟩
  | tickTimers => exact ⟨_, _, rfl, rfl, same.tickTimers (by simp) (by simp)⟩
  | setKey k p =>
    have e : setKey k p s = s.setKeyState k p := setKey_of_no_wake (.inr (.inr (by simp [h])))
    exact ⟨_, _, rfl, setKey_pc k p s, e ▸ same.setKeyState (by simp) k p⟩
  | read q => exact ⟨_, _, rfl, rfl, same⟩

end Sys2Proof.Machine

namespace Sys2Proof.Claims

open Sys2Proof.Machine

/-- Settles O49: a step halts at one of its causes, `run_cycles` by one of its steps, and of the other commands only a load. -/
theorem haltCauses : Obligations.HaltCauses := by
  refine ⟨fun s t r => step_halts_iff, fun s t hr e => ?_, fun n s t ret r e => haltedBeforeOrByStep_of_runCycles e r,
    fun s t rom ret r e => ?_, fun s t c ret r hc e => ?_⟩
  · cases (step_of_not_running hr).symm.trans e
    rfl
  · obtain rfl : (load rom s).1 = t := congrArg Prod.fst (Host.Outcome.next.inj e)
    exact load_halts_iff rom s r
  · obtain rfl | ⟨k, p, rfl⟩ | ⟨q, rfl⟩ := hc <;> cases e
    · exact ⟨Iff.rfl, nofun⟩
    · exact ⟨setKey_halted_iff k p s r, nofun⟩
    · exact ⟨Iff.rfl, nofun⟩

/-- Settles O51: by induction on the commands, each of which keeps the run state of a halted core. -/
theorem haltedUntilLoad : Obligations.HaltedUntilLoad := by
  intro cs
  induction cs with
  | nil => exact fun s r h _ => ⟨s, [], rfl, h, rfl, onlyChanges_refl _ s⟩
  | cons c cs ih =>
    intro s r h hcs
    obtain ⟨hc, hrest⟩ := List.forall_mem_cons.mp hcs
    obtain ⟨t, ret, e, hpc, keeps⟩ := command_of_halted h hc
    have ht : t.run = .halted r := (keeps .run (by simp)).trans h
    obtain ⟨u, rets, e', hu, hpc', keeps'⟩ := ih t r ht hrest
    exact ⟨u, ret :: rets, commands_cons e e', hu, hpc'.trans hpc, keeps.trans keeps'⟩

end Sys2Proof.Claims
end

section
/-! SUPPORT. The reset: what a new core holds, and what a load leaves. -/

namespace Sys2Proof.Machine

/-! ### A new core (R45, R46) -/

namespace State

theorem reg_new (q : Quirks) (x : RegIx) : (new q).reg x = 0 := Vector.getElem_replicate ..

theorem pixel_new (q : Quirks) (u : Fin 64) (v : Fin 32) : (new q).pixel u v = false := by
  simp [pixel, pixelOf, new]

theorem keyPressed_new (q : Quirks) (k : KeyIx) : (new q).keyPressed k = false := Vector.getElem_replicate ..

/-- Before its first load a core is as after a load of the empty ROM (decision D5). -/
theorem installRom_new_nil (q : Quirks) : (new q).installRom [] = new q := rfl

/-! ### The memory an installed ROM leaves (R45, R281) -/

/-- Outside the ROM every byte is what it is in a new core. -/
theorem byteAt_installRom_of_outside (s : State) {rom : List Byte} {a : Nat} (h : a < 0x200 ∨ 0x200 + rom.length ≤ a) :
    (s.installRom rom).byteAt a = Memory.background a :=
  Memory.read_writeList_of_outside (a := Config.romBase) Memory.wf_nil h

theorem some_byteAt_installRom_of_inside (s : State) {rom : List Byte} {a : Nat} (hlo : 0x200 ≤ a)
    (hhi : a < 0x200 + rom.length) : some ((s.installRom rom).byteAt a) = rom[a - 0x200]? := by
  have hk : a - 0x200 < rom.length := by omega
  rw [byteAt_installRom, if_pos hlo, List.getElem?_eq_getElem hk, Option.getD_some]

end State

/-! ### The two ends of a load (R281, R282) -/

theorem load_of_fits {rom : List Byte} (h : 0x200 + rom.length ≤ 0x1000) (s : State) :
    load rom s = (s.installRom rom, .ok) := if_pos ((romFits_iff rom).mpr h)

theorem load_of_too_large {rom : List Byte} (h : 0x1000 < 0x200 + rom.length) (s : State) :
    load rom s = (s.halt .romTooLarge, .fail .romTooLarge) :=
  if_neg fun hfit => Nat.not_le_of_lt h ((romFits_iff rom).mp hfit)

end Sys2Proof.Machine

namespace Sys2Proof.Claims

open Sys2Proof.Machine

/-- Settles O2: the bytes outside the ROM are a new core's, which are the font up to 0x04F and zero from there on. -/
theorem loadInstallsRom : Obligations.LoadInstallsRom := by
  intro rom s hfit
  have outside {a : Nat} := State.byteAt_installRom_of_outside s (rom := rom) (a := a)
  refine ⟨s.installRom rom, congrArg Host.Outcome.next (load_of_fits hfit s), fun a ha => ?_, fun a hlo hhi => ?_,
    fun _ => State.some_byteAt_installRom_of_inside s, fun a ha => ?_, rfl, rfl, State.reg_new s.quirks, rfl, rfl, rfl, rfl,
    State.pixel_new s.quirks, State.keyPressed_new s.quirks, rfl, Memory.wf_writeList Memory.wf_nil hfit⟩
  · rw [outside (.inl (by omega)), Memory.background_font ha]
  · rw [outside (.inl hhi), Memory.background_zero hlo]
  · rw [outside (.inr ha), Memory.background_zero (by omega)]

/-- Settles O3: such a ROM does not fit, so the load is the halt. -/
theorem oversizedLoadHalts : Obligations.OversizedLoadHalts :=
  fun _ s h => congrArg Host.Outcome.next (load_of_too_large h s)

/-- Settles O1: the reset state is a new core, whatever its quirks. -/
theorem resetState : Obligations.ResetState :=
  ⟨rfl, rfl, State.reg_new _, rfl, rfl, rfl, rfl, State.pixel_new _, State.keyPressed_new _,
    fun _ ha => (Memory.background_font ha).symm, fun _ => Memory.background_zero, rfl, load_of_fits (by decide) State.reset⟩

/-- Settles O56: a new core is as after a load of the empty ROM, which leaves the invariant from every state. -/
theorem invAtReset : Obligations.InvAtReset := by
  rw [Obligations.InvAtReset, State.reset, ← State.installRom_new_nil]
  exact Inv.installRom _ (by decide)

end Sys2Proof.Claims
end
